-- ==== Sys2Proof/Word.lean ====
section
/-! DEFINITION. The two widths the block handles: the u32 of every register and header field (00_scope.md R13)
and the 8-bit byte of every buffer cell (20_memory.md R60). -/

namespace Sys2Proof

/-- A u32: every register and every header field (00_scope.md R13, R14). -/
abbrev Word := BitVec 32

/-- A byte, 8 bits everywhere (20_memory.md R60). -/
abbrev Byte := BitVec 8

end Sys2Proof
end

