-- ==== Sys2Proof/Config.lean ====
section
/-! DEFINITION. What is fixed for the life of the block and is not state (10_state.md R38): the constants of
00_scope.md R7 and R8, the open parameters of R9 to R11 as ONE opaque value that has the properties the spec
allows a model to assume (41_codec_adapter.md R141, 00_scope.md R9) and no other, and the free values. -/

namespace Sys2Proof

/-! ### Constants of the source (00_scope.md R7, R8) -/

/-- `FILE_SIZE`: the exact total size of a container (R7). -/
def fileSize : Nat := 524288
/-- `HDR_SIZE` (R7). -/
def hdrSize : Nat := 32
/-- `PAYLOAD_MAX`, the largest compressed payload that fits a container (R7). -/
def payloadMax : Nat := 524256
/-- `VAL_WINDOW`, the largest prefix a host ever needs to load for the validator (R7, 43_container.md R196). -/
def valWindow : Nat := 64
/-- `VERSION_TAG` (R7). -/
def versionTag : Word := 21#32
/-- `MAGIC1` (R7). -/
def magic1Value : Word := 860693325#32
/-- `RESERVED_VAL` (R7). -/
def reservedValue : Word := 0#32
/-- `MAGIC2` (R7). -/
def magic2Value : Word := 860700740#32
/-- `MAGIC3` (R7). -/
def magic3Value : Word := 1079398965#32
/-- `POLY`, the reflected CRC polynomial (R8). -/
def crcPoly : Word := 0xEDB88320#32
/-- `CRC_INIT`, the initial accumulator (R8). -/
def crcInit : Word := 0xFFFFFFFF#32

/-! ### The open parameters (00_scope.md R9 to R11) -/

/-- The statuses a core function returns (41_codec_adapter.md R140). -/
inductive CoreStatus where
  | ok | streamError | dataError | memError | bufError
  deriving DecidableEq, Repr

/-- The wrapped deflate core: two total functions of an input and a destination capacity
(41_codec_adapter.md R140). That their result depends on `(input, cap)` alone is CP1 of R141. -/
structure Codec where
  /-- `core_deflate(input, cap)` -/
  deflate : List Byte → Nat → CoreStatus × List Byte
  /-- `core_inflate(input, cap)` -/
  inflate : List Byte → Nat → CoreStatus × List Byte

/-- The open parameters: `BUF_CAP` (R9), `BASE`, `SRC_BASE`, `DST_BASE` (R10), `Codec` and `BOUND` (R11). -/
structure Params where
  bufCap  : Nat
  base    : Nat
  srcBase : Nat
  dstBase : Nat
  codec   : Codec
  bound   : Nat → Nat

/-- CP2 (capacity): a core function that reports `OK` wrote at most `cap` bytes (41_codec_adapter.md R141). -/
def Params.CP2 (P : Params) : Prop :=
  ∀ input cap out, (P.codec.deflate input cap = (.ok, out) ∨ P.codec.inflate input cap = (.ok, out)) →
    out.length ≤ cap

/-- CP3 (round trip): what `core_deflate` makes of `p` at the bound, `core_inflate` turns back into `p` (R141). -/
def Params.CP3 (P : Params) : Prop :=
  ∀ p c, P.codec.deflate p (P.bound p.length) = (.ok, c) → P.codec.inflate c p.length = (.ok, p)

/-- CP4 (bound): `BOUND(n) >= n`, and a destination of `BOUND(|p|)` bytes is never too small (R141). -/
def Params.CP4 (P : Params) : Prop :=
  (∀ n, n ≤ P.bound n) ∧ ∀ p out, P.codec.deflate p (P.bound p.length) ≠ (.bufError, out)

/-- Everything a claim may assume of the parameters: the bounds of R9 and CP1 to CP4 of R141 (CP1 by type). -/
structure Params.Lawful (P : Params) : Prop where
  /-- `524288 <= BUF_CAP` (R9) -/
  bufCap_ge : fileSize ≤ P.bufCap
  /-- `BUF_CAP < 2^32` (R9) -/
  bufCap_lt : P.bufCap < 2 ^ 32
  cp2 : P.CP2
  cp3 : P.CP3
  cp4 : P.CP4

/-- The fixture core K_ID of 95_test_vectors.md, section 2, with the smallest legal `BUF_CAP`. It is not the
block's core: it shows that lawful parameters exist, and the tests run the model on it. -/
def Params.identity : Params where
  bufCap := fileSize
  base := 0
  srcBase := 0
  dstBase := 0
  codec :=
    { deflate := fun input cap => if input.length ≤ cap then (.ok, input) else (.bufError, [])
      inflate := fun input cap => if input.length ≤ cap then (.ok, input) else (.bufError, []) }
  bound := fun n => n

theorem Params.identity_lawful : Params.identity.Lawful where
  bufCap_ge := Nat.le_refl _
  bufCap_lt := by decide
  cp2 := by
    intro input cap out h
    simp only [Params.identity] at h
    by_cases hle : input.length ≤ cap
    · simp only [hle, if_true, or_self, Prod.mk.injEq, true_and] at h
      exact h ▸ hle
    · simp [hle] at h
  cp3 := by intro p c h; simp_all [Params.identity]
  cp4 := ⟨fun _ => Nat.le_refl _, by intro p out; simp [Params.identity]⟩

/-- The configuration of the block, any lawful one: it has no body, so nothing can be proved of it but what
`Params.Lawful` says. The argument only shows Lean that a lawful value exists. -/
opaque Config.chosen (_witness : Inhabited { P : Params // P.Lawful }) : { P : Params // P.Lawful }

/-- The block's configuration (10_state.md R38), open but for `Params.Lawful`. -/
def config : Params := (Config.chosen ⟨⟨Params.identity, Params.identity_lawful⟩⟩).1

theorem config_lawful : config.Lawful :=
  (Config.chosen ⟨⟨Params.identity, Params.identity_lawful⟩⟩).2

/-- The platform address of a register offset (R10: no rule depends on it). -/
def Params.regAddr (P : Params) (off : BitVec 12) : Nat := P.base + off.toNat
/-- The platform address of an SRC cell (R10). -/
def Params.srcAddr (P : Params) (index : Nat) : Nat := P.srcBase + index
/-- The platform address of a DST cell (R10). -/
def Params.dstAddr (P : Params) (index : Nat) : Nat := P.dstBase + index

/-! ### Free values (93_implementation_defined.md U8 to U10, U12) -/

/-- The bytes that unspecified buffer reads return: any value, a fresh one for each draw. -/
opaque Config.freeByte : Nat → Byte
/-- The words that unspecified register reads return: any value, a fresh one for each draw. -/
opaque Config.freeWord : Nat → Word

end Sys2Proof
end

