-- ==== Sys2Proof/Syntax.lean ====
section
/-! DEFINITION. The nine commands (00_scope.md R3, one constructor per row of spec/opcode_table.json) and the
fields of the one command format `CMD32` (30_encoding.md R90, R91). -/

namespace Sys2Proof

/-- The commands a host issues through `CMD` (00_scope.md R3, 30_encoding.md R92). -/
inductive Instr where
  /-- `CRC.TBL`: build the CRC table (40_crc.md R124). -/
  | crcTbl
  /-- `CRC.SUM`: checksum of the source buffer (40_crc.md R126). -/
  | crcSum
  /-- `DCA.COMP`: compress SRC into DST (41_codec_adapter.md R146). -/
  | dcaComp
  /-- `DCA.DECOMP`: decompress SRC into DST to the size in `EXP` (41_codec_adapter.md R147). -/
  | dcaDecomp
  /-- `HDR.ENC`: serialise `H` into DST (42_header_codec.md R161). -/
  | hdrEnc
  /-- `HDR.DEC`: parse the header at the start of SRC into `H` (42_header_codec.md R163). -/
  | hdrDec
  /-- `PK.REPACK`: payload to container (43_container.md R179). -/
  | pkRepack
  /-- `PK.UNPACK`, with `chk` the integrity-check bit: container to payload (43_container.md R185, R188). -/
  | pkUnpack (chk : Bool)
  /-- `PK.VALID`: version check on a prefix (43_container.md R195). -/
  | pkValid
  deriving DecidableEq, Repr

/-- The fields of a command word, most significant first (30_encoding.md R91). -/
structure Cmd32 where
  /-- `RSV`, bits 31:9 -/
  rsv : BitVec 23
  /-- `CHK`, bit 8 -/
  chk : BitVec 1
  /-- `OPC`, bits 7:0 -/
  opc : BitVec 8
  deriving DecidableEq, Repr

end Sys2Proof
end

