-- ==== Sys2Proof/WellFormed.lean ====
section
/-! DEFINITION. Which command-word fields are well formed (30_encoding.md R90, R92, R93), written from the rules
and not from the decoder: the decoder is shown to accept exactly these. -/

namespace Sys2Proof

/-- `RSV` must be 0 (R90). -/
def Cmd32.rsvZero (f : Cmd32) : Bool := f.rsv == 0

/-- `OPC` must be one of the nine of the opcode map (R92). -/
def Cmd32.opcDefined (f : Cmd32) : Bool :=
  [0x01#8, 0x02#8, 0x10#8, 0x11#8, 0x20#8, 0x21#8, 0x30#8, 0x31#8, 0x32#8].contains f.opc

/-- `CHK` may be 1 only with `OPC = 0x31` (R90, R93). -/
def Cmd32.chkAllowed (f : Cmd32) : Bool := f.chk == 0 || f.opc == 0x31#8

/-- A well-formed command word. -/
def Cmd32.wf (f : Cmd32) : Bool := f.rsvZero && f.opcDefined && f.chkAllowed

end Sys2Proof
end

