-- ==== Sys2Proof/Decode.lean ====
section
/-! DEFINITION. The decoder of command words, total on all 2^32 words (30_encoding.md R93), its refusals by
name, the encoder, and the host's entry `decodeTableWord`. -/

namespace Sys2Proof

/-- The fields of a word (30_encoding.md R91). -/
def Cmd32.ofWord (w : Word) : Cmd32 :=
  { rsv := w.extractLsb' 9 23, chk := w.extractLsb' 8 1, opc := w.extractLsb' 0 8 }

/-- The word of the fields (30_encoding.md R91). -/
def Cmd32.toWord (f : Cmd32) : Word := f.rsv ++ f.chk ++ f.opc

/-- Why a word is undefined (30_encoding.md R93). -/
inductive Undefined where
  /-- `w[31:9] != 0` -/
  | reservedBitsSet
  /-- an `OPC` that is not in the map -/
  | unknownOpcode (opc : Byte)
  /-- `CHK = 1` with an opcode other than 0x31 -/
  | chkNotAllowed (opc : Byte)
  deriving DecidableEq, Repr

/-- The opcode map (30_encoding.md R92); `chk` is what `PK.UNPACK` carries. -/
def Instr.ofOpcode (opc : Byte) (chk : Bool) : Option Instr :=
  if opc = 0x01#8 then some .crcTbl
  else if opc = 0x02#8 then some .crcSum
  else if opc = 0x10#8 then some .dcaComp
  else if opc = 0x11#8 then some .dcaDecomp
  else if opc = 0x20#8 then some .hdrEnc
  else if opc = 0x21#8 then some .hdrDec
  else if opc = 0x30#8 then some .pkRepack
  else if opc = 0x31#8 then some (.pkUnpack chk)
  else if opc = 0x32#8 then some .pkValid
  else none

/-- Decoding, in the order of 30_encoding.md R93. -/
def decode (w : Word) : Except Undefined Instr :=
  let f := Cmd32.ofWord w
  if f.rsv ≠ 0 then .error .reservedBitsSet
  else
    match Instr.ofOpcode f.opc (f.chk == 1) with
    | none => .error (.unknownOpcode f.opc)
    | some i => if f.chk ≠ 0 ∧ f.opc ≠ 0x31#8 then .error (.chkNotAllowed f.opc) else .ok i

/-- The command word's fields (30_encoding.md R92: "Full command words"). -/
def Instr.fields : Instr → Cmd32
  | .crcTbl => ⟨0, 0, 0x01#8⟩
  | .crcSum => ⟨0, 0, 0x02#8⟩
  | .dcaComp => ⟨0, 0, 0x10#8⟩
  | .dcaDecomp => ⟨0, 0, 0x11#8⟩
  | .hdrEnc => ⟨0, 0, 0x20#8⟩
  | .hdrDec => ⟨0, 0, 0x21#8⟩
  | .pkRepack => ⟨0, 0, 0x30#8⟩
  | .pkUnpack chk => ⟨0, BitVec.ofBool chk, 0x31#8⟩
  | .pkValid => ⟨0, 0, 0x32#8⟩

/-- The command word of a command. -/
def encode (i : Instr) : Word := i.fields.toWord

/-- An instruction is well formed when its word's fields are: true of every one, since no constructor carries
anything the word could not hold. -/
def Instr.wf (i : Instr) : Bool := i.fields.wf

/-- The instruction the decoder reads from a table word. The block's command word is a number, the data of the
`CMD` write (20_memory.md R66, R75), so no byte order enters; a command is one 32-bit word, and bits at or above
`nbits` are 0. -/
def decodeTableWord (nbits w : Nat) : Option Instr :=
  let v := w % 2 ^ nbits
  if v < 2 ^ 32 then (decode (BitVec.ofNat 32 v)).toOption else none

end Sys2Proof
end

