-- ==== Sys2Proof/Machine/State.lean ====
section
/-! DEFINITION. The state of the block (10_state.md R21, R37), plain data, its reset value (R41), the faults and
the refusals. -/

namespace Sys2Proof.Machine

/-- The sequencer's phases (43_container.md R175); 12 and 13 are unused and have no constructor. -/
inductive Phase where
  | idle | tbl | crc | comp | hbuild | size | emit | hdec | ver | bounds | chk | decomp | refused | done
  deriving DecidableEq, Repr

/-- The error enumeration (60_exceptions.md R210); 13 to 15 are reserved and have no constructor. -/
inductive ErrCode where
  | none | readError | writeError | formatError
  | decompressStream | decompressData | decompressMemory | decompressBuffer
  | oversize
  | compressStream | compressData | compressMemory | compressBuffer
  deriving DecidableEq, Repr

/-- The fields of `STATUS` that a command writes as a whole (10_state.md R26). `TV` is `State.tv`; the reserved
bits hold nothing. -/
structure Status where
  done  : Bool
  ill   : Bool
  phase : Phase
  err   : ErrCode
  deriving DecidableEq, Repr

/-- Eight u32 in the order of the container header's fields (10_state.md R22, 30_encoding.md R97): the header
registers `H[0..7]` and the header latch `HL[0..7]`. -/
structure Header where
  version        : Word
  realSize       : Word
  compressedSize : Word
  magic1         : Word
  reserved       : Word
  magic2         : Word
  checksum       : Word
  magic3         : Word
  deriving DecidableEq, Repr

/-- All eight fields 0. -/
def Header.zero : Header := ⟨0, 0, 0, 0, 0, 0, 0, 0⟩

/-- The internal state that no host access can reach (10_state.md R37): the phase, the header latch `HL`, the
work buffer `WRK` and the running CRC accumulator `acc`. Dead between commands. -/
structure Sequencer where
  phase : Phase
  hl    : Header
  wrk   : List Byte
  acc   : Word
  deriving DecidableEq, Repr

/-- "Between commands the sequencer is idle and holds nothing" (10_state.md R24). The zeros of the latch and of
the accumulator stand for nothing: DESIGN CHOICE, log 8. -/
def Sequencer.idle : Sequencer := ⟨.idle, .zero, [], 0⟩

/-- Byte cells by index, in strictly rising order of index; an index that is not listed holds no value
(10_state.md R30, log 6). -/
abbrev Memory := List Host.Cell

/-- The canonical form of a memory: strictly rising indices. Nothing else is needed, since an unlisted index
holds no value and so no listed byte equals it. -/
abbrev Memory.wf (m : Memory) : Prop := m.Pairwise fun x y => x.1 < y.1

/-- The registers of the register map (10_state.md R39). -/
inductive RegName where
  | cmd | status | srclen | dstlen | exp | crcacc
  /-- `H[k]` -/
  | h (k : Fin 8)
  /-- `T[i]` -/
  | t (i : Fin 256)
  | reserved
  deriving DecidableEq, Repr

/-- One access of the host, or the platform's reset (10_state.md R20, 20_memory.md R60 to R68,
70_reset_and_hazards.md R245). `width` is in bits; `off` is the offset in the 4096-byte register space. -/
inductive HostAccess where
  | writeReg (width : Nat) (off : BitVec 12) (value : Word)
  | readReg (width : Nat) (off : BitVec 12)
  | writeSrc (index : Nat) (value : Byte)
  | readSrc (index : Nat)
  | writeDst (index : Nat) (value : Byte)
  | readDst (index : Nat)
  | reset
  deriving DecidableEq, Repr

/-- What a host read returned: a u32 from the register space, a byte from a buffer space (20_memory.md R66, R68). -/
inductive HostRead where
  | word (w : Word)
  | byte (b : Byte)
  deriving DecidableEq, Repr

/-- Every piece of state the spec gives the block (10_state.md R21, R37), and last the model's own three fields. -/
structure State where
  /-- `STATUS` without `TV` (R26) -/
  status : Status
  /-- `SRCLEN` (R28) -/
  srclen : Word
  /-- `EXP` (R34) -/
  exp    : Word
  /-- `CRCACC` (R35) -/
  crcacc : Word
  /-- `H[0..7]` (R22) -/
  h      : Header
  /-- `T[0..255]` (R36) -/
  table  : Vector Word 256
  /-- `TV`, the table valid flag, `STATUS` bit 2 (R36) -/
  tv     : Bool
  /-- the SRC cells (R30) -/
  src    : Memory
  /-- `DST`, a length-tagged byte sequence; `DSTLEN` is its length (R29, R31) -/
  dst    : List Byte
  /-- the internal state of R37 -/
  seq    : Sequencer
  /-- MODEL's own: the host accesses that have not taken effect yet, oldest first (20_memory.md R72, log 1) -/
  host   : List HostAccess
  /-- MODEL's own: the answers to the host's reads, newest first (log 2) -/
  reads  : List HostRead
  /-- MODEL's own: how many free values have been handed out (log 3) -/
  draws  : Nat
  deriving DecidableEq, Repr

/-- The state after reset (10_state.md R41). The table's entries hold no value until `TV = 1`; the zeros here are
never seen (DESIGN CHOICE, log 5). -/
def State.reset : State where
  status := ⟨false, false, .idle, .none⟩
  srclen := 0
  exp := 0
  crcacc := 0
  h := .zero
  table := Vector.replicate 256 0
  tv := false
  src := []
  dst := []
  seq := .idle
  host := []
  reads := []
  draws := 0

/-- Why the machine stops. -/
inductive Fault where
  /-- A command reads an SRC cell the host has not written since reset (70_reset_and_hazards.md R252); it names
  the command and the first unwritten index. Raised by the commands that read SRC. Safe: the spec gives the byte
  no value, and the model goes no further. -/
  | unwrittenSource (cmd : Instr) (index : Nat)
  deriving DecidableEq, Repr

/-- Why the model has no next state to give. -/
inductive Refusal where
  /-- An instruction that has no meaning in this model. No arm of `exec` raises it: all nine commands have theirs.
  Safe. -/
  | notModelled (mnemonic : String)
  deriving DecidableEq, Repr

/-- The three outcomes of a step of this machine. -/
abbrev Outcome := Host.Outcome State Fault Refusal

end Sys2Proof.Machine
end

