-- ==== Sys2Proof/Machine/Flags.lean ====
section
/-! DEFINITION. The numbers of the phases and of the error codes, and the `STATUS` word (10_state.md R26, R27;
43_container.md R175; 60_exceptions.md R210). The block has no arithmetic flags: these are all its flags. -/

namespace Sys2Proof.Machine

/-- The number `STATUS.PHASE` shows (43_container.md R175). -/
def Phase.code : Phase → BitVec 4
  | .idle => 0 | .tbl => 1 | .crc => 2 | .comp => 3 | .hbuild => 4 | .size => 5 | .emit => 6 | .hdec => 7
  | .ver => 8 | .bounds => 9 | .chk => 10 | .decomp => 11 | .refused => 14 | .done => 15

/-- The number `STATUS.ERR` shows (60_exceptions.md R210). -/
def ErrCode.code : ErrCode → BitVec 4
  | .none => 0 | .readError => 1 | .writeError => 2 | .formatError => 3
  | .decompressStream => 4 | .decompressData => 5 | .decompressMemory => 6 | .decompressBuffer => 7
  | .oversize => 8
  | .compressStream => 9 | .compressData => 10 | .compressMemory => 11 | .compressBuffer => 12

/-- The `STATUS` word of its fields and of `TV` (10_state.md R26): bits 31:12 zero, `ERR` 11:8, `PHASE` 7:4, bit 3
zero, `TV` 2, `ILL` 1, `DONE` 0. -/
def statusBits (x : Status) (tv : Bool) : Word :=
  (0#20 ++ x.err.code ++ x.phase.code ++ 0#1 ++ BitVec.ofBool tv ++ BitVec.ofBool x.ill ++ BitVec.ofBool x.done :
    BitVec (20 + 4 + 4 + 1 + 1 + 1 + 1))

/-- What a read of `STATUS` returns (10_state.md R26). -/
def State.statusWord (s : State) : Word := statusBits s.status s.tv

/-- `STATUS` after a command that succeeded (43_container.md R177). -/
def Status.success : Status := ⟨true, false, .done, .none⟩

/-- `STATUS` after a refused word (30_encoding.md R94). -/
def Status.refusal : Status := ⟨true, true, .refused, .none⟩

/-- `STATUS` after the error `e` raised at the phase `p` (60_exceptions.md R215). -/
def Status.failure (e : ErrCode) (p : Phase) : Status := ⟨true, false, p, e⟩

end Sys2Proof.Machine
end

