-- ==== Sys2Proof/Machine/Ops.lean ====
section
/-! DEFINITION. The named operations over memory, registers, the sequencer and the buffers, and the ends of a
command: `raise` (60_exceptions.md R215, the block's "trap entry"), `complete` and `refuse`. There is no return
from an error: R219. -/

namespace Sys2Proof.Machine

/-! ### Byte cells (10_state.md R30, 20_memory.md R61, R77) -/

/-- The byte a cell holds, if it holds one. -/
def Memory.read : Memory → Nat → Option Byte
  | [], _ => none
  | (x, b) :: m, a => if x = a then some b else Memory.read m a

/-- Write one cell; the canonical form is kept. -/
def Memory.write : Memory → Nat → Byte → Memory
  | [], a, b => [(a, b)]
  | (x, c) :: m, a, b =>
    if a < x then (a, b) :: (x, c) :: m
    else if a = x then (a, b) :: m
    else (x, c) :: Memory.write m a b

/-- `MemRead(SRC, a, n)` (20_memory.md R77): the `n` bytes from index `a`, ascending, or the first unwritten
index. -/
def Memory.readRange (m : Memory) : Nat → Nat → Except Nat (List Byte)
  | _, 0 => .ok []
  | a, n + 1 =>
    match Memory.read m a with
    | none => .error a
    | some b =>
      match Memory.readRange m (a + 1) n with
      | .ok bs => .ok (b :: bs)
      | .error k => .error k

/-! ### Header registers by index (10_state.md R22) -/

/-- `H[k]`. -/
def Header.get (h : Header) (k : Fin 8) : Word :=
  match k with
  | 0 => h.version | 1 => h.realSize | 2 => h.compressedSize | 3 => h.magic1
  | 4 => h.reserved | 5 => h.magic2 | 6 => h.checksum | 7 => h.magic3

/-- `H[k] <- v`. -/
def Header.set (h : Header) (k : Fin 8) (v : Word) : Header :=
  match k with
  | 0 => { h with version := v } | 1 => { h with realSize := v } | 2 => { h with compressedSize := v }
  | 3 => { h with magic1 := v } | 4 => { h with reserved := v } | 5 => { h with magic2 := v }
  | 6 => { h with checksum := v } | 7 => { h with magic3 := v }

/-! ### Registers and buffers -/

/-- `DSTLEN = |DST|` (10_state.md R29). -/
def State.dstlen (s : State) : Word := BitVec.ofNat 32 s.dst.length

/-- `DST <- bytes`, the whole sequence and its length (10_state.md R31). -/
def State.putDst (bytes : List Byte) (s : State) : State := { s with dst := bytes }

/-- A write of `SRCLEN` under a capacity: above it the write is ignored (10_state.md R28). -/
def State.writeSrclen (bufCap : Nat) (v : Word) (s : State) : State :=
  if v.toNat ≤ bufCap then { s with srclen := v } else s

/-! ### The sequencer (43_container.md R175 to R178) -/

/-- Start a command at its first phase; nothing is left of an earlier one (10_state.md R37). -/
def State.begin (p : Phase) (s : State) : State := { s with seq := { Sequencer.idle with phase := p } }

/-- `phase <- p`. -/
def State.enter (p : Phase) (s : State) : State := { s with seq := { s.seq with phase := p } }

/-- `HL <- h`. -/
def State.latchHeader (h : Header) (s : State) : State := { s with seq := { s.seq with hl := h } }

/-- `WRK <- bytes` (10_state.md R32). -/
def State.stage (bytes : List Byte) (s : State) : State := { s with seq := { s.seq with wrk := bytes } }

/-! ### How a command ends -/

/-- The commands that produce a byte sequence (60_exceptions.md R215, 10_state.md R31). -/
def producesBytes : Instr → Bool
  | .dcaComp | .dcaDecomp | .hdrEnc | .pkRepack | .pkUnpack _ => true
  | .crcTbl | .crcSum | .hdrDec | .pkValid => false

/-- The phases each command walks, in order (43_container.md R176). -/
def phasesOf : Instr → List Phase
  | .crcTbl => [.tbl, .done]
  | .crcSum => [.tbl, .crc, .done]
  | .dcaComp => [.comp, .done]
  | .dcaDecomp => [.decomp, .done]
  | .hdrEnc => [.hbuild, .done]
  | .hdrDec => [.hdec, .done]
  | .pkRepack => [.comp, .tbl, .crc, .hbuild, .size, .emit, .done]
  | .pkUnpack false => [.hdec, .ver, .bounds, .decomp, .done]
  | .pkUnpack true => [.hdec, .ver, .bounds, .tbl, .chk, .decomp, .done]
  | .pkValid => [.hdec, .ver, .done]

/-- `raise e` at the current phase, in the command `i` (60_exceptions.md R215): `DONE <- 1`, `ILL <- 0`,
`ERR <- e`, `PHASE <-` the phase; a byte-producing command empties `DST`; the sequencer releases what it holds.
Nothing else changes, `TV` included. -/
def State.raise (i : Instr) (e : ErrCode) (s : State) : State :=
  { s with
    status := .failure e s.seq.phase
    dst := if producesBytes i then [] else s.dst
    seq := .idle }

/-- `phase <- P_DONE`: the command ends without an error (43_container.md R177). -/
def State.complete (s : State) : State := { s with status := .success, seq := .idle }

/-- An undefined command word (30_encoding.md R94): nothing but `STATUS` changes, and `TV` keeps its value. -/
def State.refuse (s : State) : State := { s with status := .refusal }

end Sys2Proof.Machine
end

