-- ==== Sys2Proof/Machine/Operands.lean ====
section
/-! DEFINITION. The operand forms: byte ranges of SRC, header fields assembled from bytes, and the little-endian
helpers (30_encoding.md R96, 20_memory.md R65, R77, 00_scope.md R15). No operand comes from the command word but
`CHK`. -/

namespace Sys2Proof.Machine

/-- `zeros(n)` (00_scope.md R13). -/
def zeros (n : Nat) : List Byte := List.replicate n 0#8

/-- `LE32(v)` (00_scope.md R15). -/
def le32 (v : Word) : List Byte :=
  [v.extractLsb' 0 8, v.extractLsb' 8 8, v.extractLsb' 16 8, v.extractLsb' 24 8]

/-- `UNLE32(s)` of a 4-byte sequence (00_scope.md R15); every use has four bytes. -/
def unle32 (s : List Byte) : Word :=
  BitVec.ofNat 32
    ((s.getD 0 0).toNat + 256 * (s.getD 1 0).toNat + 65536 * (s.getD 2 0).toNat + 16777216 * (s.getD 3 0).toNat)

/-- Field `k` of a header held in a byte sequence: `UNLE32(s[4k..4k+4))` (30_encoding.md R96). -/
def headerField (s : List Byte) (k : Nat) : Word := unle32 ((s.drop (4 * k)).take 4)

/-- `MemRead(SRC, a, n)` (20_memory.md R77). -/
def State.memRead (s : State) (a n : Nat) : Except Nat (List Byte) := Memory.readRange s.src a n

/-- The byte-sequence operand `SRC[0..SRCLEN)` (10_state.md R28). -/
def State.sourceBytes (s : State) : Except Nat (List Byte) := s.memRead 0 s.srclen.toNat

end Sys2Proof.Machine
end

