-- ==== Sys2Proof/Machine/Crc.lean ====
section
/-! DEFINITION. The CRC-32 engine: `TABLE`, `CRC`, the lazy guard, and the commands `CRC.TBL` and `CRC.SUM`
(40_crc.md). -/

namespace Sys2Proof.Machine

/-- One shift iteration: the test is on the low bit before the shift (40_crc.md R121). -/
def crcShift (c : Word) : Word := if c.getLsbD 0 then (c >>> 1) ^^^ crcPoly else c >>> 1

/-- `n` shift iterations. -/
def crcShifts : Nat → Word → Word
  | 0, c => c
  | n + 1, c => crcShifts n (crcShift c)

/-- `TABLE(i)`: eight iterations from `zext_32(i)` (40_crc.md R121). -/
def crcEntry (i : Nat) : Word := crcShifts 8 (BitVec.ofNat 32 i)

/-- `build_table()`: the constant `TABLE` as 256 entries (40_crc.md R120, R121). Irreducible, so that no
unification unrolls the 256 entries; `crcTable_get` says what it holds. -/
@[irreducible] def crcTable : Vector Word 256 := Vector.ofFn fun i => crcEntry i.val

/-- `(acc ^ b) & 0xFF`, the index formed from the OLD accumulator (40_crc.md R125); always in 0..255 (R128). -/
def crcIndex (acc : Word) (b : Byte) : Fin 256 :=
  ⟨((acc ^^^ b.setWidth 32) &&& 0xFF#32).toNat, by
    have h : ((acc ^^^ b.setWidth 32) &&& 0xFF#32).toNat ≤ 255 := by
      rw [BitVec.toNat_and]; exact Nat.and_le_right
    omega⟩

/-- One byte of the checksum loop over a table (40_crc.md R125). -/
def crcByte (table : Vector Word 256) (acc : Word) (b : Byte) : Word :=
  (acc >>> 8) ^^^ table.get (crcIndex acc b)

/-- `checksum(table, bytes)`: from `CRC_INIT`, bytes in ascending order, no final complement
(40_crc.md R120, R125). -/
def checksum (table : Vector Word 256) (bytes : List Byte) : Word := bytes.foldl (crcByte table) crcInit

/-- `CRC(bytes)`: the checksum over the constant `TABLE` (40_crc.md R125). -/
def crc (bytes : List Byte) : Word := checksum crcTable bytes

/-- Build the table and mark it valid (40_crc.md R124). -/
def State.buildTable (s : State) : State := { s with table := crcTable, tv := true }

/-- The lazy guard `ensure_table()` (40_crc.md R123). -/
def State.ensureTable (s : State) : State := if s.tv then s else s.buildTable

/-- `acc <- checksum(T, bytes)`, in the sequencer's accumulator, with the table the block holds (40_crc.md R120,
R125; log 11). -/
def State.runCrc (bytes : List Byte) (s : State) : State :=
  { s with seq := { s.seq with acc := checksum s.table bytes } }

/-- `CRC.TBL` (40_crc.md R124). -/
def execCrcTbl (s : State) : Outcome := .next (s.begin .tbl).buildTable.complete

/-- The accumulator becomes the result register (40_crc.md R126). -/
def State.putCrcacc (s : State) : State := { s with crcacc := s.seq.acc }

/-- `CRC.SUM` (40_crc.md R126). -/
def execCrcSum (s : State) : Outcome :=
  let s := (s.begin .tbl).ensureTable.enter .crc
  match s.sourceBytes with
  | .error a => .fault (.unwrittenSource .crcSum a)
  | .ok bytes => .next (s.runCrc bytes).putCrcacc.complete

end Sys2Proof.Machine
end

