-- ==== Sys2Proof/Machine/Bus.lean ====
section
/-! DEFINITION. The host's accesses that are not commands: the register map and its access rights
(10_state.md R39, R40), the SRC and DST spaces (20_memory.md R61, R62), refused accesses (R68) and reset
(10_state.md R41). -/

namespace Sys2Proof.Machine

/-- The register at an aligned offset (10_state.md R39). -/
def regAt (off : BitVec 12) : RegName :=
  if off = 0x000#12 then .cmd
  else if off = 0x004#12 then .status
  else if off = 0x008#12 then .srclen
  else if off = 0x00C#12 then .dstlen
  else if off = 0x010#12 then .exp
  else if off = 0x014#12 then .crcacc
  else if hh : 0x020 ≤ off.toNat ∧ off.toNat < 0x040 then .h ⟨(off.toNat - 0x020) / 4, by omega⟩
  else if ht : 0x400 ≤ off.toNat ∧ off.toNat < 0x800 then .t ⟨(off.toNat - 0x400) / 4, by omega⟩
  else .reserved

/-- The offset of a register (10_state.md R39); of the reserved offsets, 0x018. -/
def RegName.offset : RegName → BitVec 12
  | .cmd => 0x000#12 | .status => 0x004#12 | .srclen => 0x008#12 | .dstlen => 0x00C#12
  | .exp => 0x010#12 | .crcacc => 0x014#12
  | .h k => BitVec.ofNat 12 (0x020 + 4 * k.val)
  | .t i => BitVec.ofNat 12 (0x400 + 4 * i.val)
  | .reserved => 0x018#12

/-- A register access is 32 bits wide at a multiple of 4, and nothing else (20_memory.md R68). -/
def wholeWord (width : Nat) (off : BitVec 12) : Bool := width == 32 && off.toNat % 4 == 0

/-- What a read of a register returns (10_state.md R25 to R40); none: `T[i]` while `TV = 0` has no value (R36). -/
def State.regValue (s : State) : RegName → Option Word
  | .cmd => some 0
  | .status => some s.statusWord
  | .srclen => some s.srclen
  | .dstlen => some s.dstlen
  | .exp => some s.exp
  | .crcacc => some s.crcacc
  | .h k => some (s.h.get k)
  | .t i => if s.tv then some (s.table.get i) else none
  | .reserved => some 0

/-- A host write of a register that is no command: read-only and reserved ones ignore it (10_state.md R40). -/
def State.writeReg (r : RegName) (v : Word) (s : State) : State :=
  match r with
  | .srclen => s.writeSrclen config.bufCap v
  | .exp => { s with exp := v }
  | .h k => { s with h := s.h.set k v }
  | .cmd | .status | .dstlen | .crcacc | .t _ | .reserved => s

/-- The answer to a host read. -/
def State.reply (a : HostRead) (s : State) : State := { s with reads := a :: s.reads }

/-- A read that returns an unspecified word: a fresh free value (93_implementation_defined.md U8, U12; log 3). -/
def State.replyFreeWord (s : State) : State :=
  { s with reads := .word (Config.freeWord s.draws) :: s.reads, draws := s.draws + 1 }

/-- A read that returns an unspecified byte: a fresh free value (93_implementation_defined.md U9, U10, U12; log 3). -/
def State.replyFreeByte (s : State) : State :=
  { s with reads := .byte (Config.freeByte s.draws) :: s.reads, draws := s.draws + 1 }

/-- A host read of the register space (10_state.md R40, 20_memory.md R68). -/
def State.hostReadReg (width : Nat) (off : BitVec 12) (s : State) : State :=
  if wholeWord width off then
    match s.regValue (regAt off) with
    | some w => s.reply (.word w)
    | none => s.replyFreeWord
  else s.replyFreeWord

/-- A host write of an SRC cell; at an index `>= BUF_CAP` it is ignored (20_memory.md R61). -/
def State.hostWriteSrc (index : Nat) (b : Byte) (s : State) : State :=
  if index < config.bufCap then { s with src := Memory.write s.src index b } else s

/-- A host read of an SRC cell (20_memory.md R61). -/
def State.hostReadSrc (index : Nat) (s : State) : State :=
  match (if index < config.bufCap then Memory.read s.src index else none) with
  | some b => s.reply (.byte b)
  | none => s.replyFreeByte

/-- A host read of a DST cell (20_memory.md R62). -/
def State.hostReadDst (index : Nat) (s : State) : State :=
  match s.dst[index]? with
  | some b => s.reply (.byte b)
  | none => s.replyFreeByte

/-- Reset (10_state.md R41, 70_reset_and_hazards.md R245): every piece of the block's state; the model's own
three fields are the host's and stay (log 12). -/
def State.hardReset (s : State) : State :=
  { State.reset with host := s.host, reads := s.reads, draws := s.draws }

end Sys2Proof.Machine
end

