-- ==== Sys2Proof/Machine/Adapter.lean ====
section
/-! DEFINITION. The deflate codec adapter and the commands `DCA.COMP` and `DCA.DECOMP` (41_codec_adapter.md). The
core is the parameter `P.codec`; each command's meaning is written for any parameters and is used at `config`. -/

namespace Sys2Proof.Machine

/-- The four error kinds of the adapter (41_codec_adapter.md R142). -/
inductive AdapterKind where
  | stream | data | memory | buffer
  deriving DecidableEq, Repr

/-- `kind(st)`: the core's failure statuses, 1:1 (41_codec_adapter.md R142); `OK` is none of them. -/
def AdapterKind.ofStatus : CoreStatus → Option AdapterKind
  | .ok => none
  | .streamError => some .stream
  | .dataError => some .data
  | .memError => some .memory
  | .bufError => some .buffer

/-- `Decompress<K>` (41_codec_adapter.md R142). -/
def AdapterKind.decompressErr : AdapterKind → ErrCode
  | .stream => .decompressStream | .data => .decompressData
  | .memory => .decompressMemory | .buffer => .decompressBuffer

/-- `Compress<K>` (41_codec_adapter.md R142). -/
def AdapterKind.compressErr : AdapterKind → ErrCode
  | .stream => .compressStream | .data => .compressData
  | .memory => .compressMemory | .buffer => .compressBuffer

/-- The adapter's `compress` (41_codec_adapter.md R143), with its capacity check first (R144). -/
def compress (P : Params) (input : List Byte) : Except AdapterKind (List Byte) :=
  if P.bufCap < P.bound input.length then .error .memory
  else
    let r := P.codec.deflate input (P.bound input.length)
    match AdapterKind.ofStatus r.1 with
    | none => .ok r.2
    | some k => .error k

/-- The adapter's `decompress` (41_codec_adapter.md R145): the capacity check (R148), the core, the exact-size
rule (R149). -/
def decompress (P : Params) (input : List Byte) (expected : Word) : Except AdapterKind (List Byte) :=
  if P.bufCap < expected.toNat then .error .memory
  else
    let r := P.codec.inflate input expected.toNat
    match AdapterKind.ofStatus r.1 with
    | some k => .error k
    | none => if r.2.length ≠ expected.toNat then .error .data else .ok r.2

/-- `DST <- r.bytes` and the end of the command, or `Decompress<K>` raised at the current phase
(41_codec_adapter.md R147, 43_container.md R189). -/
def State.finishDecompress (i : Instr) (r : Except AdapterKind (List Byte)) (s : State) : State :=
  match r with
  | .error k => s.raise i k.decompressErr
  | .ok bytes => (s.putDst bytes).complete

/-- `DST <- r.bytes` and the end of the command, or `Compress<K>` raised at the current phase
(41_codec_adapter.md R146). -/
def State.finishCompress (i : Instr) (r : Except AdapterKind (List Byte)) (s : State) : State :=
  match r with
  | .error k => s.raise i k.compressErr
  | .ok bytes => (s.putDst bytes).complete

/-- `DCA.COMP` under parameters (41_codec_adapter.md R146). -/
def dcaCompWith (P : Params) (s : State) : Outcome :=
  let s := s.begin .comp
  match s.sourceBytes with
  | .error a => .fault (.unwrittenSource .dcaComp a)
  | .ok input => .next (s.finishCompress .dcaComp (compress P input))

/-- `DCA.DECOMP` under parameters (41_codec_adapter.md R147). -/
def dcaDecompWith (P : Params) (s : State) : Outcome :=
  let s := s.begin .decomp
  match s.sourceBytes with
  | .error a => .fault (.unwrittenSource .dcaDecomp a)
  | .ok input => .next (s.finishDecompress .dcaDecomp (decompress P input s.exp))

/-- `DCA.COMP` (41_codec_adapter.md R146). -/
def execDcaComp (s : State) : Outcome := dcaCompWith config s

/-- `DCA.DECOMP` (41_codec_adapter.md R147). -/
def execDcaDecomp (s : State) : Outcome := dcaDecompWith config s

end Sys2Proof.Machine
end

