-- ==== Sys2Proof/Machine/HeaderCodec.lean ====
section
/-! DEFINITION. The container header codec and the commands `HDR.ENC` and `HDR.DEC` (42_header_codec.md). -/

namespace Sys2Proof.Machine

/-- `encode(h)`: the eight fields in declaration order, little-endian (42_header_codec.md R160). -/
def encodeHeader (h : Header) : List Byte :=
  le32 h.version ++ le32 h.realSize ++ le32 h.compressedSize ++ le32 h.magic1
    ++ le32 h.reserved ++ le32 h.magic2 ++ le32 h.checksum ++ le32 h.magic3

/-- `decode(s)` of a sequence of at least 32 bytes (42_header_codec.md R162); every use has them. -/
def decodeHeader (s : List Byte) : Header :=
  { version := headerField s 0, realSize := headerField s 1, compressedSize := headerField s 2
    magic1 := headerField s 3, reserved := headerField s 4, magic2 := headerField s 5
    checksum := headerField s 6, magic3 := headerField s 7 }

/-- `H[0..7] <- h`. -/
def State.putHeader (h : Header) (s : State) : State := { s with h := h }

/-- `HDR.ENC` (42_header_codec.md R161). -/
def execHdrEnc (s : State) : Outcome :=
  .next (((s.begin .hbuild).putDst (encodeHeader s.h)).complete)

/-- `HDR.DEC` (42_header_codec.md R163). -/
def execHdrDec (s : State) : Outcome :=
  let s := s.begin .hdec
  if s.srclen.toNat < hdrSize then .next (s.raise .hdrDec .formatError)
  else
    match s.memRead 0 hdrSize with
    | .error a => .fault (.unwrittenSource .hdrDec a)
    | .ok bytes => .next (s.putHeader (decodeHeader bytes)).complete

end Sys2Proof.Machine
end

