-- ==== Sys2Proof/Machine/Container.lean ====
section
/-! DEFINITION. The container sequencer: `PK.REPACK`, `PK.UNPACK`, `PK.VALID` (43_container.md). The phases stand in
the order of R176 and the first failing one ends the command (R177, 60_exceptions.md R217). -/

namespace Sys2Proof.Machine

/-- The header the packer builds (43_container.md R181). -/
def packHeader (realSize : Word) (compressedLength : Nat) (sum : Word) : Header :=
  { version := versionTag, realSize := realSize, compressedSize := BitVec.ofNat 32 compressedLength
    magic1 := magic1Value, reserved := reservedValue, magic2 := magic2Value
    checksum := sum, magic3 := magic3Value }

/-- `paddingSize`, an integer that may be negative (43_container.md R182). -/
def paddingSize (compressedLength : Nat) : Int := (fileSize : Int) - (hdrSize : Int) - (compressedLength : Int)

/-- From the compressed payload to the end of `PK.REPACK` (43_container.md R179, the source's steps 2 to 4). -/
def State.packCompressed (bytes : List Byte) (s : State) : State :=
  let s := s.stage bytes
  let c := s.seq.wrk
  let s := (s.enter .tbl).ensureTable
  let s := (s.enter .crc).runCrc c
  let s := (s.enter .hbuild).latchHeader (packHeader s.srclen c.length s.seq.acc)
  let hb := encodeHeader s.seq.hl
  let s := s.enter .size
  let pad := paddingSize c.length
  if pad < 0 then s.raise .pkRepack .oversize
  else ((s.enter .emit).putDst (hb ++ c ++ zeros pad.toNat)).complete

/-- `PK.REPACK` after the compression (43_container.md R179). -/
def State.finishRepack (r : Except AdapterKind (List Byte)) (s : State) : State :=
  match r with
  | .error k => s.raise .pkRepack k.compressErr
  | .ok bytes => s.packCompressed bytes

/-- `PK.REPACK` under parameters (43_container.md R179). -/
def pkRepackWith (P : Params) (s : State) : Outcome :=
  let s := s.begin .comp
  match s.sourceBytes with
  | .error a => .fault (.unwrittenSource .pkRepack a)
  | .ok payload => .next (s.finishRepack (compress P payload))

/-- The decompression step of `PK.UNPACK` (43_container.md R185, R189). -/
def State.unpackPayload (P : Params) (chk : Bool) (c : List Byte) (s : State) : State :=
  (s.enter .decomp).finishDecompress (.pkUnpack chk) (decompress P c s.seq.hl.realSize)

/-- The integrity check of `PK.UNPACK` with `CHK = 1` (43_container.md R188), then the decompression. -/
def State.unpackChecked (P : Params) (chk : Bool) (c : List Byte) (s : State) : State :=
  if chk then
    let s := (s.enter .tbl).ensureTable
    let s := (s.enter .chk).runCrc c
    if s.seq.acc ≠ s.seq.hl.checksum then s.raise (.pkUnpack chk) .formatError
    else s.unpackPayload P chk c
  else s.unpackPayload P chk c

/-- `PK.UNPACK` under parameters (43_container.md R185). -/
def pkUnpackWith (P : Params) (chk : Bool) (s : State) : Outcome :=
  let s := s.begin .hdec
  if s.srclen.toNat < hdrSize then .next (s.raise (.pkUnpack chk) .formatError)
  else
    match s.memRead 0 hdrSize with
    | .error a => .fault (.unwrittenSource (.pkUnpack chk) a)
    | .ok hb =>
      let s := (s.latchHeader (decodeHeader hb)).enter .ver
      if s.seq.hl.version ≠ versionTag then .next (s.raise (.pkUnpack chk) .formatError)
      else
        let s := s.enter .bounds
        if s.srclen.toNat < hdrSize + s.seq.hl.compressedSize.toNat then
          .next (s.raise (.pkUnpack chk) .formatError)
        else
          match s.memRead hdrSize s.seq.hl.compressedSize.toNat with
          | .error a => .fault (.unwrittenSource (.pkUnpack chk) a)
          | .ok c => .next (s.unpackChecked P chk c)

/-- `PK.REPACK` (43_container.md R179). -/
def execPkRepack (s : State) : Outcome := pkRepackWith config s

/-- `PK.UNPACK` (43_container.md R185). -/
def execPkUnpack (chk : Bool) (s : State) : Outcome := pkUnpackWith config chk s

/-- `PK.VALID` (43_container.md R195): only bytes 0 to 3 are read. -/
def execPkValid (s : State) : Outcome :=
  let s := s.begin .hdec
  if s.srclen.toNat < hdrSize then .next (s.raise .pkValid .formatError)
  else
    match s.memRead 0 4 with
    | .error a => .fault (.unwrittenSource .pkValid a)
    | .ok vb =>
      let s := (s.latchHeader { Header.zero with version := unle32 vb }).enter .ver
      if s.seq.hl.version ≠ versionTag then .next (s.raise .pkValid .formatError)
      else .next s.complete

end Sys2Proof.Machine
end

