-- ==== Sys2Proof/Machine/Dispatch.lean ====
section
/-! DEFINITION. One arm per command. -/

namespace Sys2Proof.Machine

def exec (i : Instr) (s : State) : Host.Outcome State Fault Refusal :=
  match i with
  | .crcTbl => Sys2Proof.Machine.execCrcTbl s
  | .crcSum => Sys2Proof.Machine.execCrcSum s
  | .dcaComp => Sys2Proof.Machine.execDcaComp s
  | .dcaDecomp => Sys2Proof.Machine.execDcaDecomp s
  | .hdrEnc => Sys2Proof.Machine.execHdrEnc s
  | .hdrDec => Sys2Proof.Machine.execHdrDec s
  | .pkRepack => Sys2Proof.Machine.execPkRepack s
  | .pkUnpack chk => Sys2Proof.Machine.execPkUnpack chk s
  | .pkValid => Sys2Proof.Machine.execPkValid s

end Sys2Proof.Machine
end

