-- ==== Sys2Proof/Machine/Access.lean ====
section
/-! DEFINITION. What one host access does: a write of `CMD` decodes its word and runs the command, or is refused
(10_state.md R25, 30_encoding.md R93, R94); the others are in Machine/Bus.lean. -/

namespace Sys2Proof.Machine

/-- A write of `w` to `CMD` (10_state.md R25): the command runs to completion inside the write (R20); an
undefined word is refused (30_encoding.md R94). -/
def issue (w : Word) (s : State) : Outcome :=
  match decode w with
  | .ok i => exec i s
  | .error _ => .next s.refuse

/-- A host write to the register space (10_state.md R39, R40; 20_memory.md R68, R69). -/
def hostWriteReg (width : Nat) (off : BitVec 12) (v : Word) (s : State) : Outcome :=
  if wholeWord width off then
    if regAt off = .cmd then issue v s else .next (s.writeReg (regAt off) v)
  else .next s

/-- One host access (10_state.md R20). -/
def access (a : HostAccess) (s : State) : Outcome :=
  match a with
  | .writeReg width off v => hostWriteReg width off v s
  | .readReg width off => .next (s.hostReadReg width off)
  | .writeSrc index b => .next (s.hostWriteSrc index b)
  | .readSrc index => .next (s.hostReadSrc index)
  | .writeDst _ _ => .next s
  | .readDst index => .next (s.hostReadDst index)
  | .reset => .next s.hardReset

/-- The access that issues a command word: a whole-word write to `CMD`, offset 0x000 (10_state.md R25). -/
def commandAccess (w : Word) : HostAccess := .writeReg 32 0x000#12 w

end Sys2Proof.Machine
end

