-- ==== Sys2Proof/Machine/HostLines.lean ====
section
/-! DEFINITION. The host-action lines of 30_encoding.md R101 and the host sequences of R102, as the lists of
accesses they stand for, with what the host does by the answers it reads. -/

namespace Sys2Proof.Machine

/-- One line of a command sequence (30_encoding.md R101). -/
inductive HostLine where
  /-- `W <reg>, <value>` -/
  | writeReg (r : RegName) (value : Word)
  /-- `WS <index>, <byte list>` -/
  | writeSrc (index : Nat) (bytes : List Byte)
  /-- `R <reg>` -/
  | readReg (r : RegName)
  /-- `RD <index>, <count>` -/
  | readDst (index count : Nat)
  /-- a bare mnemonic -/
  | command (i : Instr)
  deriving DecidableEq, Repr

/-- Single-byte SRC writes in ascending index order (20_memory.md R68). -/
def writeSrcBytes : Nat → List Byte → List HostAccess
  | _, [] => []
  | a, b :: bs => .writeSrc a b :: writeSrcBytes (a + 1) bs

/-- Single-byte DST reads in ascending index order (20_memory.md R68). -/
def readDstBytes : Nat → Nat → List HostAccess
  | _, 0 => []
  | a, n + 1 => .readDst a :: readDstBytes (a + 1) n

/-- The accesses a line stands for (30_encoding.md R101). -/
def HostLine.accesses : HostLine → List HostAccess
  | .writeReg r v => [.writeReg 32 r.offset v]
  | .writeSrc a bs => writeSrcBytes a bs
  | .readReg r => [.readReg 32 r.offset]
  | .readDst a n => readDstBytes a n
  | .command i => [commandAccess (encode i)]

/-- The accesses of a sequence of lines, in order. -/
def hostProgram (ls : List HostLine) : List HostAccess := ls.flatMap HostLine.accesses

/-- `unpack(source_path)` up to `R STATUS` (30_encoding.md R102). -/
def unpackLines (file : List Byte) : List HostLine :=
  [.writeSrc 0 file, .writeReg .srclen (BitVec.ofNat 32 file.length), .command (.pkUnpack false), .readReg .status]

/-- `repack(dest_path, payload_bytes)` up to `R STATUS` (30_encoding.md R102). -/
def repackLines (payload : List Byte) : List HostLine :=
  [.writeSrc 0 payload, .writeReg .srclen (BitVec.ofNat 32 payload.length), .command .pkRepack, .readReg .status]

/-- What `validate` loads: at most the first 64 bytes of the file (30_encoding.md R102). -/
def validateWindow (file : List Byte) : List Byte := file.take valWindow

/-- `validate(source_path)`, all of it (30_encoding.md R102). -/
def validateLines (file : List Byte) : List HostLine :=
  [.writeSrc 0 (validateWindow file), .writeReg .srclen (BitVec.ofNat 32 (validateWindow file).length),
    .command .pkValid, .readReg .status]

/-- The three external operations, on what the host's file layer hands over: the file's bytes or the payload
(30_encoding.md R102; the file access itself is out of scope, 00_scope.md R6). -/
inductive HostOp where
  | unpack (file : List Byte)
  | repack (payload : List Byte)
  | validate (file : List Byte)
  deriving DecidableEq, Repr

/-- The bytes an operation loads into SRC. -/
def HostOp.loads : HostOp → List Byte
  | .unpack file => file
  | .repack payload => payload
  | .validate file => validateWindow file

/-- An operation's lines up to `R STATUS`. -/
def HostOp.lines : HostOp → List HostLine
  | .unpack file => unpackLines file
  | .repack payload => repackLines payload
  | .validate file => validateLines file

/-- `ERR` of a `STATUS` word the host has read: bits 11:8 (10_state.md R26). -/
def errField (status : Word) : BitVec 4 := status.extractLsb' 8 4

/-- The lines that follow `R STATUS` by the answers the operation has had so far, oldest first: on `ERR = 0`, `unpack`
goes on with `R DSTLEN` and then, by its answer, with `RD 0, DSTLEN`; `repack` with `RD 0, 524288`; otherwise, and
after the last of them, nothing follows (30_encoding.md R102). -/
def HostOp.linesAfter (op : HostOp) (answers : List HostRead) : List HostLine :=
  match op, answers with
  | .unpack _, [.word status] => if errField status = 0 then [.readReg .dstlen] else []
  | .unpack _, [.word _, .word dstlen] => [.readDst 0 dstlen.toNat]
  | .repack _, [.word status] => if errField status = 0 then [.readDst 0 fileSize] else []
  | _, _ => []

/-- What an operation returns to the host's file layer (30_encoding.md R102). -/
inductive HostResult where
  /-- `Ok`: the payload of `unpack`, the bytes that `repack` has for the destination, nothing of `validate` -/
  | ok (bytes : List Byte)
  /-- `Err`, with the number of `STATUS.ERR` -/
  | err (code : BitVec 4)
  /-- the bytes to load are more than `BUF_CAP`: reported by the host itself -/
  | tooLong
  deriving DecidableEq, Repr

/-- The bytes among the answers. -/
def readBytes (answers : List HostRead) : List Byte :=
  answers.filterMap fun a => match a with
    | .byte b => some b
    | .word _ => none

/-- The result by all answers of an operation, the first of them that of `R STATUS`; none where there is no such
answer, which no operation that has made its accesses leaves. -/
def hostResult (answers : List HostRead) : Option HostResult :=
  match answers with
  | .word status :: rest => some (if errField status = 0 then .ok (readBytes rest) else .err (errField status))
  | _ => none

end Sys2Proof.Machine
end

