-- ==== Sys2Proof/Machine/HostOps.lean ====
section
/-! DEFINITION. The host's three external operations run on the block (30_encoding.md R102): each line's accesses
are made one after another, each after the one before has completed (10_state.md R20), and the lines that follow
are chosen by the answers. -/

namespace Sys2Proof.Machine

/-- `s` with `a` as the host's next access. -/
def State.request (s : State) (a : HostAccess) : State := { s with host := a :: s.host }

/-- The host makes these accesses in order, one step each, up to the first that stops the machine. -/
def hostMakes : List HostAccess → State → Outcome
  | [], s => .next s
  | a :: as, s =>
    match step (s.request a) with
    | .next t => hostMakes as t
    | .fault f => .fault f
    | .refused r => .refused r

/-- The answers that `t` has beyond those of `s`, oldest first (log 2). -/
def State.answersSince (s t : State) : List HostRead := (t.reads.take (t.reads.length - s.reads.length)).reverse

/-- `n` further rounds of an operation that began in `s0`: the lines that follow by the answers so far. -/
def HostOp.goOn (op : HostOp) (s0 : State) : Nat → State → Outcome
  | 0, t => .next t
  | n + 1, t =>
    match hostMakes (hostProgram (op.linesAfter (s0.answersSince t))) t with
    | .next u => HostOp.goOn op s0 n u
    | .fault f => .fault f
    | .refused r => .refused r

/-- All accesses of an operation: its lines up to `R STATUS`, then at most two rounds more. -/
def HostOp.accessAll (op : HostOp) (s : State) : Outcome :=
  match hostMakes (hostProgram op.lines) s with
  | .next t => op.goOn s 2 t
  | .fault f => .fault f
  | .refused r => .refused r

/-- An operation with its result; bytes that do not fit SRC are never loaded (30_encoding.md R102; log 20). -/
def HostOp.run (op : HostOp) (s : State) : Host.Outcome (State × Option HostResult) Fault Refusal :=
  if config.bufCap < op.loads.length then .next (s, some .tooLong)
  else
    match op.accessAll s with
    | .next t => .next (t, hostResult (s.answersSince t))
    | .fault f => .fault f
    | .refused r => .refused r

end Sys2Proof.Machine
end

