-- ==== Sys2Proof/Safety.lean ====
section
/-! DEFINITION. The terms claims are stated in: what SRC holds, which operands the host must have written
(70_reset_and_hazards.md R249), which errors a command may raise (60_exceptions.md R211), and the invariant every
state between accesses meets. -/

namespace Sys2Proof.Machine

/-! ### The source buffer -/

/-- Every SRC cell of `[a, a + n)` has been written since reset (20_memory.md R77). -/
def State.Written (s : State) (a n : Nat) : Prop := ∀ k, k < n → (Memory.read s.src (a + k)).isSome

/-- `SRC[a..a+|bytes|)` has been written and is `bytes` (20_memory.md R77). -/
def State.Holds (s : State) (a : Nat) (bytes : List Byte) : Prop :=
  ∀ k, (hk : k < bytes.length) → Memory.read s.src (a + k) = some bytes[k]

/-- `bytes` is the byte-sequence operand `SRC[0..SRCLEN)` (10_state.md R28). -/
def State.Source (s : State) (bytes : List Byte) : Prop := bytes.length = s.srclen.toNat ∧ s.Holds 0 bytes

/-- The first 32 SRC cells are written, `SRCLEN` covers them, and they are `hb`: a header can be decoded
(42_header_codec.md R162). -/
def State.HeaderBytes (s : State) (hb : List Byte) : Prop :=
  hdrSize ≤ s.srclen.toNat ∧ hb.length = hdrSize ∧ s.Holds 0 hb

/-- What the host must have written before it issues the command (70_reset_and_hazards.md R249). -/
def State.OperandsWritten (s : State) : Instr → Prop
  | .crcTbl | .hdrEnc => True
  | .crcSum | .dcaComp | .dcaDecomp | .pkRepack => s.Written 0 s.srclen.toNat
  | .hdrDec => hdrSize ≤ s.srclen.toNat → s.Written 0 hdrSize
  | .pkValid => hdrSize ≤ s.srclen.toNat → s.Written 0 4
  | .pkUnpack _ =>
    (hdrSize ≤ s.srclen.toNat → s.Written 0 hdrSize) ∧
    ∀ hb, s.HeaderBytes hb → headerField hb 0 = versionTag →
      hdrSize + (headerField hb 2).toNat ≤ s.srclen.toNat → s.Written hdrSize (headerField hb 2).toNat

/-- The command an external operation issues (30_encoding.md R102). -/
def HostOp.command : HostOp → Instr
  | .unpack _ => .pkUnpack false
  | .repack _ => .pkRepack
  | .validate _ => .pkValid

/-! ### Errors -/

/-- The errors each command may raise, each with its phase (60_exceptions.md R211). -/
def raisable : Instr → List (ErrCode × Phase)
  | .crcTbl | .crcSum | .hdrEnc => []
  | .dcaComp =>
    [(.compressStream, .comp), (.compressData, .comp), (.compressMemory, .comp), (.compressBuffer, .comp)]
  | .dcaDecomp =>
    [(.decompressStream, .decomp), (.decompressData, .decomp), (.decompressMemory, .decomp),
      (.decompressBuffer, .decomp)]
  | .hdrDec => [(.formatError, .hdec)]
  | .pkRepack =>
    [(.compressStream, .comp), (.compressData, .comp), (.compressMemory, .comp), (.compressBuffer, .comp),
      (.oversize, .size)]
  | .pkUnpack false =>
    [(.formatError, .hdec), (.formatError, .ver), (.formatError, .bounds), (.decompressStream, .decomp),
      (.decompressData, .decomp), (.decompressMemory, .decomp), (.decompressBuffer, .decomp)]
  | .pkUnpack true =>
    [(.formatError, .hdec), (.formatError, .ver), (.formatError, .bounds), (.formatError, .chk),
      (.decompressStream, .decomp), (.decompressData, .decomp), (.decompressMemory, .decomp),
      (.decompressBuffer, .decomp)]
  | .pkValid => [(.formatError, .hdec), (.formatError, .ver)]

/-- The error code and the phase fit together as 60_exceptions.md R211 lists them. -/
def causeListed (e : ErrCode) (p : Phase) : Bool :=
  match e with
  | .formatError => [Phase.hdec, .ver, .bounds, .chk].contains p
  | .decompressStream | .decompressData | .decompressMemory | .decompressBuffer => p == .decomp
  | .oversize => p == .size
  | .compressStream | .compressData | .compressMemory | .compressBuffer => p == .comp
  | .none | .readError | .writeError => false

/-- The combinations `STATUS` can show (10_state.md R26): nothing issued yet; refused; success; a listed error. -/
def Status.legal (x : Status) : Bool :=
  x == ⟨false, false, .idle, .none⟩ || x == .refusal || x == .success ||
    (x.done && !x.ill && causeListed x.err x.phase)

/-! ### How a core call ends, in the spec's own words and without the adapter's functions -/

/-- `t` is how a compression of `input` ends (41_codec_adapter.md R142 to R144): `fail e` after the error `e`,
`good c` with the compressed bytes `c`. -/
def CompEnds (P : Params) (input : List Byte) (fail : ErrCode → State) (good : List Byte → State)
    (t : State) : Prop :=
  (P.bufCap < P.bound input.length → t = fail .compressMemory) ∧
  (P.bound input.length ≤ P.bufCap → ∀ st out, P.codec.deflate input (P.bound input.length) = (st, out) →
    (st = .ok → t = good out) ∧
    (st = .streamError → t = fail .compressStream) ∧
    (st = .dataError → t = fail .compressData) ∧
    (st = .memError → t = fail .compressMemory) ∧
    (st = .bufError → t = fail .compressBuffer))

/-- `t` is how a decompression of `input` to `expected` bytes ends (41_codec_adapter.md R142, R145, R148, R149). -/
def DecompEnds (P : Params) (input : List Byte) (expected : Word) (fail : ErrCode → State)
    (good : List Byte → State) (t : State) : Prop :=
  (P.bufCap < expected.toNat → t = fail .decompressMemory) ∧
  (expected.toNat ≤ P.bufCap → ∀ st out, P.codec.inflate input expected.toNat = (st, out) →
    (st = .ok → out.length = expected.toNat → t = good out) ∧
    (st = .ok → out.length ≠ expected.toNat → t = fail .decompressData) ∧
    (st = .streamError → t = fail .decompressStream) ∧
    (st = .dataError → t = fail .decompressData) ∧
    (st = .memError → t = fail .decompressMemory) ∧
    (st = .bufError → t = fail .decompressBuffer))

/-- The state after the error `e` at the phase `p` of a command that produces a byte sequence
(60_exceptions.md R215): `DST` is empty. -/
def State.failedEmpty (s : State) (p : Phase) (e : ErrCode) : State :=
  { s with dst := [], status := ⟨true, false, p, e⟩, seq := .idle }

/-- The state after the error `e` at the phase `p` of a command that produces no byte sequence
(60_exceptions.md R215). -/
def State.failedKeep (s : State) (p : Phase) (e : ErrCode) : State :=
  { s with status := ⟨true, false, p, e⟩, seq := .idle }

/-- The state after a command that put `bytes` into `DST`. -/
def State.produced (s : State) (bytes : List Byte) : State :=
  { s with dst := bytes, status := ⟨true, false, .done, .none⟩, seq := .idle }

/-- The state with the table built (40_crc.md R123). -/
def State.withTable (s : State) : State := { s with table := crcTable, tv := true }

/-- The container of the compressed payload `c` of a payload whose length register is `realSize`
(30_encoding.md R97, R98). -/
def containerOf (realSize : Word) (c : List Byte) : List Byte :=
  le32 21#32 ++ le32 realSize ++ le32 (BitVec.ofNat 32 c.length) ++ le32 860693325#32 ++ le32 0#32 ++
    le32 860700740#32 ++ le32 (crc c) ++ le32 1079398965#32 ++ c ++ List.replicate (524288 - 32 - c.length) 0#8

/-- `t` is how `PK.REPACK` of the payload `p` ends (43_container.md R179). -/
def RepackEnds (P : Params) (s : State) (p : List Byte) (t : State) : Prop :=
  CompEnds P p (s.failedEmpty .comp)
    (fun c =>
      if 524256 < c.length then s.withTable.failedEmpty .size .oversize
      else s.withTable.produced (containerOf s.srclen c)) t

/-! ### The invariant -/

/-- `T[i] = TABLE(i)` whenever `TV = 1` (10_state.md R36). -/
def State.TableOk (s : State) : Prop := s.tv = true → s.table = crcTable

/-- What holds of the block between two accesses. -/
structure State.Inv (s : State) : Prop where
  /-- the canonical form of SRC -/
  src_wf : Memory.wf s.src
  /-- SRC has `BUF_CAP` cells (10_state.md R30) -/
  src_index : ∀ c ∈ s.src, c.1 < config.bufCap
  /-- `SRCLEN <= BUF_CAP` (10_state.md R28) -/
  srclen_le : s.srclen.toNat ≤ config.bufCap
  /-- `DSTLEN <= BUF_CAP` (10_state.md R29, R33) -/
  dst_le : s.dst.length ≤ config.bufCap
  /-- 10_state.md R36 -/
  table_ok : s.TableOk
  /-- between commands the sequencer is idle and holds nothing (10_state.md R24, R37) -/
  seq_idle : s.seq = .idle
  /-- `STATUS` shows a legal combination (10_state.md R26, R27) -/
  status_legal : s.status.legal = true

end Sys2Proof.Machine
end

