-- ==== Sys2Proof/Certificates/Slice0/Obligations.lean ====
section
/-! DEFINITION. The statements for the provers. Each docstring names the rule of spec/ it formalises. The meanings
of the four commands that call the deflate core are stated for EVERY configuration `P` and for `exec`, which runs
them at `config` (10_state.md R38). -/

open Sys2Proof Sys2Proof.Machine

/-! ### Encoding -/

/-- Decoding and encoding are inverse to each other in both directions (30_encoding.md R92, R93). -/
def Obligations.DecodeInvertsEncode : Prop :=
  (∀ i : Instr, i.wf = true → decode (encode i) = .ok i) ∧
  (∀ (w : Word) (i : Instr), decode w = .ok i → i.wf = true ∧ encode i = w)

/-- 30_encoding.md R93: decoding of every word, by its fields and by the table's match and mask. -/
def Obligations.DecodingFollowsTheOpcodeMap : Prop :=
  ∀ w : Word,
    (w.extractLsb' 9 23 ≠ 0#23 → ∃ u, decode w = .error u) ∧
    (w.extractLsb' 9 23 = 0#23 → w.extractLsb' 0 8 = 0x31#8 → decode w = .ok (.pkUnpack (w.getLsbD 8))) ∧
    (w.extractLsb' 9 23 = 0#23 → w.getLsbD 8 = false →
      (w.extractLsb' 0 8 = 0x01#8 → decode w = .ok .crcTbl) ∧
      (w.extractLsb' 0 8 = 0x02#8 → decode w = .ok .crcSum) ∧
      (w.extractLsb' 0 8 = 0x10#8 → decode w = .ok .dcaComp) ∧
      (w.extractLsb' 0 8 = 0x11#8 → decode w = .ok .dcaDecomp) ∧
      (w.extractLsb' 0 8 = 0x20#8 → decode w = .ok .hdrEnc) ∧
      (w.extractLsb' 0 8 = 0x21#8 → decode w = .ok .hdrDec) ∧
      (w.extractLsb' 0 8 = 0x30#8 → decode w = .ok .pkRepack) ∧
      (w.extractLsb' 0 8 = 0x32#8 → decode w = .ok .pkValid)) ∧
    (w.extractLsb' 0 8 ∉ [0x01#8, 0x02#8, 0x10#8, 0x11#8, 0x20#8, 0x21#8, 0x30#8, 0x31#8, 0x32#8] →
      ∃ u, decode w = .error u) ∧
    (w.getLsbD 8 = true → w.extractLsb' 0 8 ≠ 0x31#8 → ∃ u, decode w = .error u) ∧
    (decode w = .ok .crcTbl ↔ w &&& 0xFFFFFFFF#32 = 0x00000001#32) ∧
    (decode w = .ok .crcSum ↔ w &&& 0xFFFFFFFF#32 = 0x00000002#32) ∧
    (decode w = .ok .dcaComp ↔ w &&& 0xFFFFFFFF#32 = 0x00000010#32) ∧
    (decode w = .ok .dcaDecomp ↔ w &&& 0xFFFFFFFF#32 = 0x00000011#32) ∧
    (decode w = .ok .hdrEnc ↔ w &&& 0xFFFFFFFF#32 = 0x00000020#32) ∧
    (decode w = .ok .hdrDec ↔ w &&& 0xFFFFFFFF#32 = 0x00000021#32) ∧
    (decode w = .ok .pkRepack ↔ w &&& 0xFFFFFFFF#32 = 0x00000030#32) ∧
    ((∃ chk, decode w = .ok (.pkUnpack chk)) ↔ w &&& 0xFFFFFEFF#32 = 0x00000031#32) ∧
    (decode w = .ok .pkValid ↔ w &&& 0xFFFFFFFF#32 = 0x00000032#32)

/-- The fields of 30_encoding.md R91 lose no bit, and the decoder accepts exactly the words whose fields are well
formed (R90, R92). -/
def Obligations.DecoderAcceptsExactlyWellFormedFields : Prop :=
  (∀ f : Cmd32, Cmd32.ofWord f.toWord = f) ∧
  (∀ w : Word, (Cmd32.ofWord w).toWord = w) ∧
  (∀ w : Word, (∃ i, decode w = .ok i) ↔ (Cmd32.ofWord w).wf = true)

/-- Words written out in 30_encoding.md R92 and 95_test_vectors.md, section 4.5, decode as listed there. -/
def Obligations.ListedWordsDecode : Prop :=
  decode 0x00000001#32 = .ok .crcTbl ∧ decode 0x00000011#32 = .ok .dcaDecomp ∧
  decode 0x00000020#32 = .ok .hdrEnc ∧ decode 0x00000031#32 = .ok (.pkUnpack false) ∧
  decode 0x00000131#32 = .ok (.pkUnpack true) ∧ decode 0x00000000#32 = .error (.unknownOpcode 0x00#8) ∧
  decode 0x00000130#32 = .error (.chkNotAllowed 0x30#8) ∧ decode 0x80000031#32 = .error .reservedBitsSet

/-! ### The step -/

/-- A step runs the command that the written word decodes to, on the state as the host's earlier accesses left it
(10_state.md R25, 20_memory.md R72); with no access pending the block does nothing (70_reset_and_hazards.md R247).
That pending accesses stand in a queue is the model's own (log 1). -/
def Obligations.StepRunsTheDecodedCommand : Prop :=
  (∀ s : State, s.host = [] → step s = .next s) ∧
  (∀ (s : State) (w : Word) (i : Instr) (rest : List HostAccess),
    s.host = commandAccess w :: rest → decode w = .ok i → i.wf = true →
      step s = exec i { s with host := rest }) ∧
  (∀ (s : State) (w : Word) (i : Instr), decode w = .ok i → i.wf = true →
      step (s.withFetchWord 32 w.toNat) = exec i s)

/-- 30_encoding.md R94: an undefined command word is refused; only `STATUS` changes. -/
def Obligations.RefusedWordChangesOnlyStatus : Prop :=
  ∀ (s : State) (w : Word) (u : Undefined) (rest : List HostAccess),
    s.host = commandAccess w :: rest → decode w = .error u →
      ∃ t, step s = .next t ∧
        t = { s with host := rest, status := ⟨true, true, .refused, .none⟩ } ∧
        t.statusWord = if s.tv then 0x000000E7#32 else 0x000000E3#32

/-- 10_state.md R41: what reset leaves, from power-on and from any state. (What the spec gives no value, the table,
the latch and the accumulator, is not stated: log 5, log 8.) -/
def Obligations.ResetLeavesTheListedValues : Prop :=
  (∀ (s : State) (rest : List HostAccess), s.host = .reset :: rest →
    ∃ t, step s = .next t ∧
      t.statusWord = 0x00000000#32 ∧ t.status = ⟨false, false, .idle, .none⟩ ∧ t.tv = false ∧
      t.srclen = 0#32 ∧ t.dstlen = 0#32 ∧ t.dst = [] ∧ t.exp = 0#32 ∧ t.crcacc = 0x00000000#32 ∧
      (∀ k : Fin 8, t.h.get k = 0x00000000#32) ∧ (∀ i : Fin 256, t.regValue (.t i) = none) ∧
      (∀ a, Memory.read t.src a = none) ∧ t.seq.wrk = [] ∧ t.seq.phase = .idle) ∧
  State.reset.statusWord = 0x00000000#32 ∧ State.reset.status = ⟨false, false, .idle, .none⟩ ∧
  State.reset.tv = false ∧ State.reset.srclen = 0#32 ∧ State.reset.dstlen = 0#32 ∧ State.reset.dst = [] ∧
  State.reset.exp = 0#32 ∧ State.reset.crcacc = 0x00000000#32 ∧
  (∀ k : Fin 8, State.reset.h.get k = 0x00000000#32) ∧ (∀ i : Fin 256, State.reset.regValue (.t i) = none) ∧
  (∀ a, Memory.read State.reset.src a = none) ∧ State.reset.seq.wrk = [] ∧ State.reset.seq.phase = .idle

/-! ### The invariant -/

/-- The reset state meets the invariant (10_state.md R28, R29, R36, R37, R41). -/
def Obligations.ResetMeetsTheInvariant : Prop := State.reset.Inv

/-- Every step keeps the invariant: SRC's canonical form and size, `SRCLEN` and `DSTLEN` within `BUF_CAP`, the table
equal to `TABLE` whenever `TV = 1`, the sequencer idle between accesses, `STATUS` a legal combination
(10_state.md R24, R26 to R30, R33, R36, R37). -/
def Obligations.StepKeepsTheInvariant : Prop :=
  ∀ s t : State, s.Inv → step s = .next t → t.Inv

/-! ### Host accesses -/

/-- The register map of 10_state.md R39, in both directions, with the reserved offsets. -/
def Obligations.RegisterMapIsTheListedOne : Prop :=
  (∀ r : RegName, r ≠ .reserved → regAt r.offset = r ∧ r.offset.toNat % 4 = 0) ∧
  (∀ off : BitVec 12, off.toNat % 4 = 0 → regAt off ≠ .reserved → (regAt off).offset = off) ∧
  (∀ off : BitVec 12, off.toNat % 4 = 0 →
    (regAt off = .reserved ↔
      off.toNat = 0x018 ∨ off.toNat = 0x01C ∨ (0x040 ≤ off.toNat ∧ off.toNat ≤ 0x3FC) ∨ 0x800 ≤ off.toNat)) ∧
  RegName.cmd.offset = 0x000#12 ∧ RegName.status.offset = 0x004#12 ∧ RegName.srclen.offset = 0x008#12 ∧
  RegName.dstlen.offset = 0x00C#12 ∧ RegName.exp.offset = 0x010#12 ∧ RegName.crcacc.offset = 0x014#12 ∧
  (∀ k : Fin 8, (RegName.h k).offset.toNat = 0x020 + 4 * k.val) ∧
  (∀ i : Fin 256, (RegName.t i).offset.toNat = 0x400 + 4 * i.val)

/-- A whole-word read of a register returns its value and changes nothing of the block (10_state.md R25, R26, R28,
R29, R34 to R36, R39, R40; 20_memory.md R69); of the write-only `CMD` and of the reserved offsets it returns 0; of
`T[i]` while `TV = 0` it returns a free word, for which nothing is claimed (log 3). -/
def Obligations.RegisterReadsHaveNoSideEffect : Prop :=
  ∀ (s : State) (off : BitVec 12) (rest : List HostAccess),
    s.host = .readReg 32 off :: rest → off.toNat % 4 = 0 →
      ∃ (t : State) (v : Word), step s = .next t ∧
        t = { s with host := rest, reads := .word v :: s.reads, draws := t.draws } ∧
        ((∀ i, regAt off = .t i → s.tv = true) → t.draws = s.draws) ∧
        (regAt off = .cmd ∨ regAt off = .reserved → v = 0x00000000#32) ∧
        (regAt off = .status → v = s.statusWord) ∧
        (regAt off = .srclen → v = s.srclen) ∧
        (regAt off = .dstlen → v = BitVec.ofNat 32 s.dst.length) ∧
        (regAt off = .exp → v = s.exp) ∧
        (regAt off = .crcacc → v = s.crcacc) ∧
        (∀ k, regAt off = .h k → v = s.h.get k) ∧
        (∀ i, regAt off = .t i → s.tv = true → v = s.table.get i) ∧
        (∀ i, regAt off = .t i → s.tv = false → v = Config.freeWord s.draws ∧ t.draws = s.draws + 1)

/-- A whole-word write of a register other than `CMD`: `SRCLEN` takes a value up to `BUF_CAP` and keeps its own above
it (10_state.md R28), `EXP` and `H[k]` take any value (R22, R34), read-only and reserved ones ignore it (R40). -/
def Obligations.RegisterWritesStoreOrAreIgnored : Prop :=
  ∀ (s : State) (off : BitVec 12) (v : Word) (rest : List HostAccess),
    s.host = .writeReg 32 off v :: rest → off.toNat % 4 = 0 → regAt off ≠ .cmd →
      ∃ t : State, step s = .next t ∧
        t = { s with host := rest, srclen := t.srclen, exp := t.exp, h := t.h } ∧
        t.srclen = (if regAt off = .srclen ∧ v.toNat ≤ config.bufCap then v else s.srclen) ∧
        t.exp = (if regAt off = .exp then v else s.exp) ∧
        (∀ k, t.h.get k = if regAt off = .h k then v else s.h.get k)

/-- 20_memory.md R68: a register access of another width or at another offset: the write is ignored, the read returns
an unspecified word (a free value, for which nothing is claimed: log 3, log 4). -/
def Obligations.OtherWidthsAndOffsetsAreIgnored : Prop :=
  ∀ (s : State) (width : Nat) (off : BitVec 12) (rest : List HostAccess),
    (width ≠ 32 ∨ off.toNat % 4 ≠ 0) →
      (∀ v, s.host = .writeReg width off v :: rest → step s = .next { s with host := rest }) ∧
      (s.host = .readReg width off :: rest →
        step s = .next { s with host := rest, draws := s.draws + 1
                                reads := .word (Config.freeWord s.draws) :: s.reads })

/-- 20_memory.md R61: host writes and reads of SRC cells. At an index `>= BUF_CAP`, and where nothing was written, a
read returns an unspecified byte (a free value, log 3). -/
def Obligations.SourceCellAccesses : Prop :=
  ∀ (s : State) (index : Nat) (rest : List HostAccess),
    (∀ b, s.host = .writeSrc index b :: rest →
      ∃ t : State, step s = .next t ∧ t = { s with host := rest, src := t.src } ∧
        (∀ a, Memory.read t.src a = if a = index ∧ index < config.bufCap then some b else Memory.read s.src a)) ∧
    (s.host = .readSrc index :: rest →
      (∀ b, index < config.bufCap → Memory.read s.src index = some b →
        step s = .next { s with host := rest, reads := .byte b :: s.reads }) ∧
      (Memory.read s.src index = none ∨ config.bufCap ≤ index →
        step s = .next { s with host := rest, draws := s.draws + 1
                                reads := .byte (Config.freeByte s.draws) :: s.reads }))

/-- 20_memory.md R62: host reads of DST cells, and host writes, which are ignored. At an index `>= DSTLEN` a read
returns an unspecified byte (a free value, log 3). -/
def Obligations.DestinationCellAccesses : Prop :=
  ∀ (s : State) (index : Nat) (rest : List HostAccess),
    (∀ b, s.host = .writeDst index b :: rest → step s = .next { s with host := rest }) ∧
    (s.host = .readDst index :: rest →
      (∀ hlt : index < s.dst.length,
        step s = .next { s with host := rest, reads := .byte s.dst[index] :: s.reads }) ∧
      (s.dst.length ≤ index →
        step s = .next { s with host := rest, draws := s.draws + 1
                                reads := .byte (Config.freeByte s.draws) :: s.reads }))

/-- The line `WS a, bytes` (30_encoding.md R101), run access by access, leaves SRC holding the bytes and every other
cell as it was (20_memory.md R61, R68, R72), and `SRCLEN` untouched (70_reset_and_hazards.md R256). -/
def Obligations.LoadedSourceIsHeld : Prop :=
  ∀ (bytes : List Byte) (s : State) (a : Nat) (rest : List HostAccess),
    a + bytes.length ≤ config.bufCap → s.host = (HostLine.writeSrc a bytes).accesses ++ rest →
      ∃ t : State, Sys2Proof.core.run bytes.length s = .next t ∧
        t = { s with host := rest, src := t.src } ∧ t.Holds a bytes ∧
        (∀ j, j < a ∨ a + bytes.length ≤ j → Memory.read t.src j = Memory.read s.src j)

/-- The line `RD a, n` (30_encoding.md R101), run access by access, answers `DST[a..a+n)` in ascending order
(20_memory.md R62, R68) and changes nothing else. -/
def Obligations.ResultIsReadOut : Prop :=
  ∀ (n : Nat) (s : State) (a : Nat) (rest : List HostAccess),
    a + n ≤ s.dst.length → s.host = (HostLine.readDst a n).accesses ++ rest →
      Sys2Proof.core.run n s = .next
        { s with host := rest, reads := (((s.dst.drop a).take n).map HostRead.byte).reverse ++ s.reads }

/-- The `STATUS` word, bit by bit (10_state.md R26), with the numbers of 43_container.md R175 and
60_exceptions.md R210. -/
def Obligations.StatusWordLayout : Prop :=
  (∀ s : State,
    s.statusWord.getLsbD 0 = s.status.done ∧ s.statusWord.getLsbD 1 = s.status.ill ∧
    s.statusWord.getLsbD 2 = s.tv ∧ s.statusWord.getLsbD 3 = false ∧
    s.statusWord.extractLsb' 4 4 = s.status.phase.code ∧ s.statusWord.extractLsb' 8 4 = s.status.err.code ∧
    s.statusWord.extractLsb' 12 20 = 0#20 ∧
    s.statusWord.toNat = s.status.err.code.toNat * 256 + s.status.phase.code.toNat * 16 + s.tv.toNat * 4 +
      s.status.ill.toNat * 2 + s.status.done.toNat) ∧
  [Phase.idle, .tbl, .crc, .comp, .hbuild, .size, .emit, .hdec, .ver, .bounds, .chk, .decomp, .refused, .done].map
    (fun p => p.code.toNat) = [0, 1, 2, 3, 4, 5, 6, 7, 8, 9, 10, 11, 14, 15] ∧
  [ErrCode.none, .readError, .writeError, .formatError, .decompressStream, .decompressData, .decompressMemory,
    .decompressBuffer, .oversize, .compressStream, .compressData, .compressMemory, .compressBuffer].map
    (fun e => e.code.toNat) = [0, 1, 2, 3, 4, 5, 6, 7, 8, 9, 10, 11, 12]

/-! ### The CRC engine -/

/-- 40_crc.md R121: every table entry is eight shift iterations from its index, the test on the bit shifted out and
the XOR on the shifted value. -/
def Obligations.TableEntriesAreEightShifts : Prop :=
  (∀ i : Fin 256, ∃ c : Nat → Word, c 0 = BitVec.ofNat 32 i.val ∧
    (∀ n, n < 8 → c (n + 1) = if (c n).getLsbD 0 then (c n >>> 1) ^^^ 0xEDB88320#32 else c n >>> 1) ∧
    crcTable.get i = c 8) ∧
  crcTable.get 0 = 0x00000000#32 ∧ crcTable.get 1 = 0x77073096#32 ∧ crcTable.get 128 = 0xEDB88320#32 ∧
  crcTable.get 255 = 0x2D02EF8D#32

/-- The checksum function of 40_crc.md R125: its start, its step on the old accumulator, no final complement, and the
check value of the nine digits. -/
def Obligations.ChecksumFoldsTheBytes : Prop :=
  crc [] = 0xFFFFFFFF#32 ∧
  (∀ (bs : List Byte) (b : Byte) (idx : Fin 256), idx.val = ((crc bs ^^^ b.setWidth 32) &&& 0xFF#32).toNat →
    crc (bs ++ [b]) = (crc bs >>> 8) ^^^ crcTable.get idx) ∧
  crc [0x31#8, 0x32#8, 0x33#8, 0x34#8, 0x35#8, 0x36#8, 0x37#8, 0x38#8, 0x39#8] = 0x340BC6D9#32

/-- 40_crc.md R124: `CRC.TBL` always completes; it builds the table and changes nothing else but `STATUS`. -/
def Obligations.CrcTblBuildsTheTable : Prop :=
  decode 0x00000001#32 = .ok .crcTbl ∧
  ∀ s : State, ∃ t : State, exec .crcTbl s = .next t ∧
    t = { s with table := t.table, tv := true, status := ⟨true, false, .done, .none⟩, seq := .idle } ∧
    (∀ i, t.table.get i = crcTable.get i) ∧ (s.TableOk → s.tv = true → t.table = s.table) ∧
    t.statusWord = 0x000000F5#32 ∧ t.regValue (regAt 0x404#12) = some 0x77073096#32

/-- 40_crc.md R126: `CRC.SUM` completes on every written source and puts `CRC` of it into `CRCACC`; the guard has built
the table; nothing else changes but `STATUS`. -/
def Obligations.CrcSumPutsTheChecksum : Prop :=
  decode 0x00000002#32 = .ok .crcSum ∧
  ∀ (s : State) (bytes : List Byte), s.TableOk → s.Source bytes →
    ∃ t : State, exec .crcSum s = .next t ∧
      t = { s with crcacc := crc bytes, table := crcTable, tv := true
                   status := ⟨true, false, .done, .none⟩, seq := .idle } ∧
      t.statusWord = 0x000000F5#32 ∧ (s.srclen = 0#32 → t.crcacc = 0xFFFFFFFF#32) ∧
      (bytes = [0x31#8, 0x32#8, 0x33#8, 0x34#8, 0x35#8, 0x36#8, 0x37#8, 0x38#8, 0x39#8] →
        t.crcacc = 0x340BC6D9#32)

/-- 70_reset_and_hazards.md R248 and 40_crc.md R123: whether the table was built before makes no difference to any
command but for the table itself. -/
def Obligations.EagerTableChangesNoResult : Prop :=
  ∀ (i : Instr) (s t : State), s.TableOk → exec i s = .next t → exec i s.withTable = .next t.withTable

/-- 95_test_vectors.md, section 4.1: a checksum appended little-endian to its own bytes sums to 0. -/
def Obligations.AppendedChecksumSumsToZero : Prop :=
  ∀ m : List Byte, crc (m ++ le32 (crc m)) = 0x00000000#32

/-- 40_crc.md R127: two sequences of equal length that differ in exactly one byte have different checksums. -/
def Obligations.OneChangedByteChangesTheChecksum : Prop :=
  ∀ (pre suf : List Byte) (b b' : Byte), b ≠ b' → crc (pre ++ b :: suf) ≠ crc (pre ++ b' :: suf)

/-! ### The codec adapter -/

/-- 41_codec_adapter.md R146 (with R142 to R144): `DCA.COMP` completes on every written source, with the result of the
core or the listed error; nothing but `DST` and `STATUS` changes. -/
def Obligations.DcaCompOutcome : Prop :=
  decode 0x00000010#32 = .ok .dcaComp ∧
  ∀ (s : State) (input : List Byte), s.Source input →
    (∃ t, exec .dcaComp s = .next t ∧ CompEnds config input (s.failedEmpty .comp) s.produced t) ∧
    ∀ P : Params, ∃ t, dcaCompWith P s = .next t ∧ CompEnds P input (s.failedEmpty .comp) s.produced t

/-- 41_codec_adapter.md R147 (with R142, R145, R148, R149): `DCA.DECOMP` completes on every written source, with
exactly `EXP` bytes or the listed error; nothing but `DST` and `STATUS` changes. -/
def Obligations.DcaDecompOutcome : Prop :=
  decode 0x00000011#32 = .ok .dcaDecomp ∧
  ∀ (s : State) (input : List Byte), s.Source input →
    (∃ t, exec .dcaDecomp s = .next t ∧ DecompEnds config input s.exp (s.failedEmpty .decomp) s.produced t) ∧
    ∀ P : Params, ∃ t, dcaDecompWith P s = .next t ∧
      DecompEnds P input s.exp (s.failedEmpty .decomp) s.produced t

/-- A decompression that succeeds has exactly the declared size, in both commands that decompress
(41_codec_adapter.md R147, R149; 43_container.md R189): never a short or a long result. -/
def Obligations.DecompressedSizeIsTheDeclaredOne : Prop :=
  ∀ (P : Params) (s t : State),
    ((exec .dcaDecomp s = .next t ∨ dcaDecompWith P s = .next t) → t.status.err = .none →
      t.dst.length = s.exp.toNat ∧ t.dstlen = s.exp) ∧
    ∀ (chk : Bool) (hb : List Byte), s.HeaderBytes hb →
      (exec (.pkUnpack chk) s = .next t ∨ pkUnpackWith P chk s = .next t) → t.status.err = .none →
        t.dst.length = (headerField hb 1).toNat ∧ t.dstlen = headerField hb 1

/-- What `DCA.COMP` made, carried to SRC by the host, `DCA.DECOMP` turns back (CP3 of 41_codec_adapter.md R141). -/
def Obligations.CompressThenDecompressRestores : Prop :=
  ∀ (P : Params) (s t s2 : State) (p : List Byte), P.Lawful → s.Source p → dcaCompWith P s = .next t →
    t.status.err = .none → s2.Source t.dst → s2.exp = s.srclen → dcaDecompWith P s2 = .next (s2.produced p)

/-! ### The header codec -/

/-- 00_scope.md R15: `LE32`, `UNLE32`, and that they are inverse to each other. -/
def Obligations.LittleEndianHelpers : Prop :=
  (∀ v : Word, le32 v = [v.extractLsb' 0 8, v.extractLsb' 8 8, v.extractLsb' 16 8, v.extractLsb' 24 8]) ∧
  (∀ a b c d : Byte,
    (unle32 [a, b, c, d]).toNat = a.toNat + 256 * b.toNat + 65536 * c.toNat + 16777216 * d.toNat) ∧
  (∀ v : Word, unle32 (le32 v) = v) ∧
  (∀ bs : List Byte, bs.length = 4 → le32 (unle32 bs) = bs)

/-- 42_header_codec.md R160: the 32 bytes of a header, byte `4k + j` being bits `8j+7 : 8j` of field `k`. -/
def Obligations.HeaderByteLayout : Prop :=
  ∀ h : Header,
    encodeHeader h = le32 (h.get 0) ++ le32 (h.get 1) ++ le32 (h.get 2) ++ le32 (h.get 3) ++ le32 (h.get 4) ++
      le32 (h.get 5) ++ le32 (h.get 6) ++ le32 (h.get 7) ∧
    (encodeHeader h).length = 32 ∧
    ∀ (k : Fin 8) (j : Fin 4),
      (encodeHeader h)[4 * k.val + j.val]? = some ((h.get k).extractLsb' (8 * j.val) 8)

/-- 42_header_codec.md R164: the round trips of the header codec. -/
def Obligations.HeaderCodecRoundTrip : Prop :=
  (∀ h : Header, decodeHeader (encodeHeader h) = h) ∧
  (∀ bs : List Byte, 32 ≤ bs.length → encodeHeader (decodeHeader bs) = bs.take 32) ∧
  (∀ bs : List Byte, bs.length = 32 → ∃! h, encodeHeader h = bs)

/-- 42_header_codec.md R161: `HDR.ENC` always completes; `DST` is the serialised `H`, whatever `H` holds; nothing else
changes but `STATUS`. -/
def Obligations.HdrEncSerialisesTheRegisters : Prop :=
  decode 0x00000020#32 = .ok .hdrEnc ∧
  ∀ s : State, ∃ t : State, exec .hdrEnc s = .next t ∧
    t = { s with dst := t.dst, status := ⟨true, false, .done, .none⟩, seq := .idle } ∧
    t.dst = le32 s.h.version ++ le32 s.h.realSize ++ le32 s.h.compressedSize ++ le32 s.h.magic1 ++
      le32 s.h.reserved ++ le32 s.h.magic2 ++ le32 s.h.checksum ++ le32 s.h.magic3 ∧
    t.dstlen = 32#32 ∧
    (s.h = ⟨21, 5, 5, 860693325, 0, 860700740, 0xC9EF5979, 1079398965⟩ →
      t.dst = [0x15, 0, 0, 0, 0x05, 0, 0, 0, 0x05, 0, 0, 0, 0x4D, 0x23, 0x4D, 0x33, 0, 0, 0, 0, 0x44, 0x40, 0x4D,
        0x33, 0x79, 0x59, 0xEF, 0xC9, 0x35, 0x52, 0x56, 0x40])

/-- 42_header_codec.md R163: `HDR.DEC` writes all eight registers from the first 32 source bytes and no field is
checked; with fewer than 32 bytes it raises `FormatError` at `P_HDEC` and changes nothing else. -/
def Obligations.HdrDecParsesTheHeader : Prop :=
  decode 0x00000021#32 = .ok .hdrDec ∧
  ∀ s : State,
    (s.srclen.toNat < 32 →
      exec .hdrDec s = .next (s.failedKeep .hdec .formatError) ∧
      (s.tv = false → (s.failedKeep .hdec .formatError).statusWord = 0x00000371#32)) ∧
    (∀ hb, s.HeaderBytes hb → ∃ t : State, exec .hdrDec s = .next t ∧
      t = { s with h := t.h, status := ⟨true, false, .done, .none⟩, seq := .idle } ∧
      (∀ k : Fin 8, t.h.get k = unle32 ((hb.drop (4 * k.val)).take 4)) ∧
      (hb = [0x15, 0, 0, 0, 0x05, 0, 0, 0, 0x05, 0, 0, 0, 0x4D, 0x23, 0x4D, 0x33, 0, 0, 0, 0, 0x44, 0x40, 0x4D,
          0x33, 0x79, 0x59, 0xEF, 0xC9, 0x35, 0x52, 0x56, 0x40] →
        t.h = ⟨21, 5, 5, 0x334D234D, 0, 0x334D4044, 0xC9EF5979, 0x40565235⟩))

/-! ### The container sequencer -/

/-- 43_container.md R179 (with R180 to R183): `PK.REPACK` completes on every written payload: the container, or the
compression error, or `OversizeError` exactly when the compressed payload is longer than 524256 bytes; the checksum
is over the compressed bytes; nothing but `DST`, the table and `STATUS` changes. -/
def Obligations.PkRepackOutcome : Prop :=
  decode 0x00000030#32 = .ok .pkRepack ∧
  ∀ (s : State) (p : List Byte), s.TableOk → s.Source p →
    (∃ t, exec .pkRepack s = .next t ∧ RepackEnds config s p t) ∧
    ∀ P : Params, ∃ t, pkRepackWith P s = .next t ∧ RepackEnds P s p t

/-- 43_container.md R184: exactly 524288 bytes, or an error of the listed ones and nothing. -/
def Obligations.RepackIsFixedSizeOrNothing : Prop :=
  ∀ (P : Params) (s t : State), (exec .pkRepack s = .next t ∨ pkRepackWith P s = .next t) →
    (t.status.err = .none ∧ t.dst.length = 524288 ∧ t.dstlen = 524288#32) ∨
    (t.status.err ∈ [ErrCode.oversize, .compressStream, .compressData, .compressMemory, .compressBuffer] ∧
      t.dst = [] ∧ t.dstlen = 0#32)

/-- The file layout of 30_encoding.md R97 and R98, read back out of `DST` after a successful `PK.REPACK`. -/
def Obligations.ContainerLayout : Prop :=
  ∀ (P : Params) (s t : State) (p : List Byte), P.Lawful → s.TableOk → s.Source p → pkRepackWith P s = .next t →
    t.status.err = .none →
      ∃ c, P.codec.deflate p (P.bound p.length) = (.ok, c) ∧ 32 + c.length ≤ 524288 ∧ t.dst.length = 524288 ∧
        (t.dst.drop 32).take c.length = c ∧
        t.dst.drop (32 + c.length) = List.replicate (524288 - 32 - c.length) 0#8 ∧
        headerField t.dst 0 = 21#32 ∧ headerField t.dst 1 = s.srclen ∧
        (headerField t.dst 2).toNat = c.length ∧ headerField t.dst 3 = 860693325#32 ∧
        headerField t.dst 4 = 0#32 ∧ headerField t.dst 5 = 860700740#32 ∧ headerField t.dst 6 = crc c ∧
        headerField t.dst 7 = 1079398965#32

/-- 43_container.md R185 (with R186 to R189 and the priority of 60_exceptions.md R217): `PK.UNPACK` phase by phase. A
short source, a wrong version, a compressed range beyond the source (a sum that does not wrap), with `CHK = 1` a
checksum mismatch, and then the decompression of exactly the compressed range to `realSize`; nothing but `DST`,
`STATUS` and, with `CHK = 1`, the table changes. -/
def Obligations.PkUnpackOutcome : Prop :=
  decode 0x00000031#32 = .ok (.pkUnpack false) ∧ decode 0x00000131#32 = .ok (.pkUnpack true) ∧
  ∀ (s : State) (chk : Bool),
    (s.srclen.toNat < 32 → exec (.pkUnpack chk) s = .next (s.failedEmpty .hdec .formatError)) ∧
    ∀ hb, s.HeaderBytes hb →
      (headerField hb 0 ≠ 21#32 → exec (.pkUnpack chk) s = .next (s.failedEmpty .ver .formatError)) ∧
      (headerField hb 0 = 21#32 → s.srclen.toNat < 32 + (headerField hb 2).toNat →
        exec (.pkUnpack chk) s = .next (s.failedEmpty .bounds .formatError)) ∧
      ∀ c, headerField hb 0 = 21#32 → c.length = (headerField hb 2).toNat → 32 + c.length ≤ s.srclen.toNat →
        s.Holds 32 c →
        (chk = false →
          (∃ t, exec (.pkUnpack chk) s = .next t ∧
            DecompEnds config c (headerField hb 1) (s.failedEmpty .decomp) s.produced t) ∧
          ∀ P : Params, ∃ t, pkUnpackWith P chk s = .next t ∧
            DecompEnds P c (headerField hb 1) (s.failedEmpty .decomp) s.produced t) ∧
        (chk = true → s.TableOk → crc c ≠ headerField hb 6 →
          exec (.pkUnpack chk) s = .next (s.withTable.failedEmpty .chk .formatError)) ∧
        (chk = true → s.TableOk → crc c = headerField hb 6 →
          (∃ t, exec (.pkUnpack chk) s = .next t ∧
            DecompEnds config c (headerField hb 1) (s.withTable.failedEmpty .decomp) s.withTable.produced t) ∧
          ∀ P : Params, ∃ t, pkUnpackWith P chk s = .next t ∧
            DecompEnds P c (headerField hb 1) (s.withTable.failedEmpty .decomp) s.withTable.produced t)

/-- 43_container.md R186: any version but 21 is a `FormatError`, in the unpacker and whatever the rest of the file
holds or does not hold; a source of fewer than 32 bytes is one too, from `P_HDEC`. -/
def Obligations.VersionGateOfTheUnpacker : Prop :=
  ∀ (s : State) (chk : Bool) (version rest : List Byte),
    (s.srclen.toNat < 32 → exec (.pkUnpack chk) s = .next (s.failedEmpty .hdec .formatError)) ∧
    (32 ≤ s.srclen.toNat → version.length = 4 → rest.length = 28 → s.Holds 0 (version ++ rest) →
      unle32 version ≠ 21#32 → exec (.pkUnpack chk) s = .next (s.failedEmpty .ver .formatError))

/-- 43_container.md R190: with `CHK = 0`, two files that agree on version, sizes and the compressed bytes give the same
result, whatever stands in the magic, reserved and checksum fields, in the padding, and in `SRCLEN` beyond it. -/
def Obligations.UncheckedBytesDoNotMatter : Prop :=
  ∀ (s s2 t : State) (hb hb2 c : List Byte), s.HeaderBytes hb → s2.HeaderBytes hb2 →
    headerField hb2 0 = headerField hb 0 → headerField hb2 1 = headerField hb 1 →
    headerField hb2 2 = headerField hb 2 → c.length = (headerField hb 2).toNat →
    32 + c.length ≤ s.srclen.toNat → 32 + c.length ≤ s2.srclen.toNat → s.Holds 32 c → s2.Holds 32 c →
    exec (.pkUnpack false) s = .next t →
      ∃ t2, exec (.pkUnpack false) s2 = .next t2 ∧ t2.dst = t.dst ∧ t2.status = t.status

/-- 43_container.md R191: what `PK.REPACK` made of `p`, carried to SRC by the host, `PK.UNPACK` turns back into `p`,
with either `CHK`. -/
def Obligations.RepackThenUnpackRestores : Prop :=
  ∀ (P : Params) (chk : Bool) (s t s2 : State) (p : List Byte), P.Lawful → s.TableOk → s2.TableOk → s.Source p →
    pkRepackWith P s = .next t → t.status.err = .none → s2.srclen = 524288#32 → s2.Source t.dst →
      ∃ t2, pkUnpackWith P chk s2 = .next t2 ∧ t2.status.err = .none ∧ t2.dst = p ∧
        t2.dstlen = BitVec.ofNat 32 p.length

/-- With `CHK = 1` the block itself detects any one corrupted byte of the compressed region, as `FormatError` at
`P_CHK` (90_conflicts.md C9; 43_container.md R188; 40_crc.md R127). -/
def Obligations.ChkCatchesOneCorruptedByte : Prop :=
  ∀ (s : State) (hb pre suf : List Byte) (b b' : Byte), s.TableOk → s.HeaderBytes hb → headerField hb 0 = 21#32 →
    (headerField hb 2).toNat = (pre ++ b' :: suf).length → 32 + (pre ++ b' :: suf).length ≤ s.srclen.toNat →
    headerField hb 6 = crc (pre ++ b :: suf) → s.Holds 32 (pre ++ b' :: suf) → b ≠ b' →
      exec (.pkUnpack true) s = .next (s.withTable.failedEmpty .chk .formatError)

/-- In a claim about `FormatError` the core has no part: it is not called when a format check fails
(60_exceptions.md R218), so the outcome is the same under every core. -/
def Obligations.FormatErrorsPrecedeTheCore : Prop :=
  ∀ (P Q : Params) (chk : Bool) (s t : State), pkUnpackWith P chk s = .next t → t.status.err = .formatError →
    pkUnpackWith Q chk s = .next t

/-- 43_container.md R195: `PK.VALID` looks at `SRCLEN` and bytes 0 to 3 and at nothing else, and changes `STATUS`
alone. -/
def Obligations.PkValidChecksTheVersion : Prop :=
  decode 0x00000032#32 = .ok .pkValid ∧
  ∀ s : State,
    (s.srclen.toNat < 32 → exec .pkValid s = .next (s.failedKeep .hdec .formatError) ∧
      (s.tv = false → (s.failedKeep .hdec .formatError).statusWord = 0x00000371#32)) ∧
    (32 ≤ s.srclen.toNat → ∀ vb : List Byte, vb.length = 4 → s.Holds 0 vb →
      (unle32 vb = 21#32 →
        exec .pkValid s = .next { s with status := ⟨true, false, .done, .none⟩, seq := .idle }) ∧
      (unle32 vb ≠ 21#32 → exec .pkValid s = .next (s.failedKeep .ver .formatError) ∧
        (s.tv = false → (s.failedKeep .ver .formatError).statusWord = 0x00000381#32)))

/-- 43_container.md R196: any prefix of 32 bytes or more of a file the packer made validates, 64 bytes among them,
whatever the rest of SRC holds or does not hold. -/
def Obligations.PackedPrefixValidates : Prop :=
  ∀ (P : Params) (s t s2 : State) (p : List Byte) (n : Nat), P.Lawful → s.TableOk → s.Source p →
    pkRepackWith P s = .next t → t.status.err = .none → 32 ≤ n → n ≤ 524288 → s2.srclen = BitVec.ofNat 32 n →
    s2.Holds 0 (t.dst.take n) →
      exec .pkValid s2 = .next { s2 with status := ⟨true, false, .done, .none⟩, seq := .idle }

/-! ### The whole machine -/

/-- 10_state.md R42: the frame of all nine commands and of a refused word. Every SRC cell, `SRCLEN` and `EXP` stay;
`H` changes only in a successful `HDR.DEC`; `CRCACC` only in `CRC.SUM`; `DST` only in the five commands that produce
bytes; the table only where the lazy guard or `CRC.TBL` runs, and `TV` is never cleared. -/
def Obligations.WriteSetsOfAllCommands : Prop :=
  (∀ (i : Instr) (s t : State), exec i s = .next t →
    t.srclen = s.srclen ∧ t.exp = s.exp ∧ (∀ a, Memory.read t.src a = Memory.read s.src a) ∧ t.src = s.src ∧
    t.host = s.host ∧ t.reads = s.reads ∧ t.draws = s.draws ∧
    t.status.done = true ∧ t.status.ill = false ∧
    (i ≠ .hdrDec → t.h = s.h) ∧ (t.status.err ≠ .none → t.h = s.h) ∧
    (i ≠ .crcSum → t.crcacc = s.crcacc) ∧
    (i ∈ [Instr.crcTbl, .crcSum, .hdrDec, .pkValid] → t.dst = s.dst ∧ t.dstlen = s.dstlen) ∧
    (i ∈ [Instr.dcaComp, .dcaDecomp, .hdrEnc, .hdrDec, .pkUnpack false, .pkValid] →
      t.table = s.table ∧ t.tv = s.tv) ∧
    (i = .pkRepack → t.status.phase = .comp → t.table = s.table ∧ t.tv = s.tv) ∧
    (i = .pkUnpack true → t.status.phase ∈ [Phase.hdec, .ver, .bounds] → t.table = s.table ∧ t.tv = s.tv) ∧
    (s.tv = true → t.tv = true ∧ (s.TableOk → t.table = s.table))) ∧
  (∀ (w : Word) (u : Undefined) (s : State), decode w = .error u →
    issue w s = .next { s with status := ⟨true, true, .refused, .none⟩ })

/-- Every command ends in a phase of its own list (43_container.md R176, R177), with `ERR = 0` exactly at `P_DONE`, and
otherwise with an error and a phase that 60_exceptions.md R211 lists for it; 1 and 2 are never among them (R212). -/
def Obligations.ErrorsHaveTheListedCauses : Prop :=
  (∀ (i : Instr) (s t : State), exec i s = .next t →
    t.status.phase ∈ phasesOf i ∧ (t.status.err = .none ↔ t.status.phase = .done) ∧
    (t.status.err ≠ .none → (t.status.err, t.status.phase) ∈ raisable i) ∧
    t.status.err ≠ .readError ∧ t.status.err ≠ .writeError) ∧
  (∀ i ep, ep ∈ raisable i → causeListed ep.1 ep.2 = true)

/-- 60_exceptions.md R215: `raise E at P` writes `STATUS`, empties `DST` of the commands that produce bytes, and a
failing command has no other effect but a table built on the way. -/
def Obligations.FailedCommandChangesNothingElse : Prop :=
  (∀ i, producesBytes i = true ↔
    i ∈ [Instr.dcaComp, .dcaDecomp, .hdrEnc, .pkRepack, .pkUnpack false, .pkUnpack true]) ∧
  (∀ (i : Instr) (e : ErrCode) (s : State), s.raise i e =
    { s with status := ⟨true, false, s.seq.phase, e⟩, seq := .idle
             dst := if producesBytes i then [] else s.dst }) ∧
  (∀ (i : Instr) (s t : State), exec i s = .next t → t.status.err ≠ .none →
    t = { s with status := ⟨true, false, t.status.phase, t.status.err⟩, table := t.table, tv := t.tv, seq := .idle
                 dst := if producesBytes i then [] else s.dst } ∧
    t.status.phase ≠ .done ∧ t.seq.wrk = [])

/-- What a command does depends on its operands alone: two states that agree on `SRCLEN`, the SRC cells below it,
`EXP`, `H` and the table give the same outcome, whatever `STATUS`, `CRCACC`, `DST`, the SRC cells at or beyond
`SRCLEN` and the sequencer held (10_state.md R30, R35, R37; 20_memory.md R64; 60_exceptions.md R219). -/
def Obligations.CommandsDependOnTheirOperandsOnly : Prop :=
  ∀ (i : Instr) (s s2 : State), s2.srclen = s.srclen → s2.exp = s.exp → s2.h = s.h → s2.table = s.table →
    s2.tv = s.tv → (∀ a, a < s.srclen.toNat → Memory.read s2.src a = Memory.read s.src a) →
    (∀ t, exec i s = .next t → ∃ t2, exec i s2 = .next t2 ∧ t2.status = t.status ∧ t2.table = t.table ∧
      t2.tv = t.tv ∧ t2.h = t.h ∧ (producesBytes i = true → t2.dst = t.dst) ∧
      (i = .crcSum → t2.crcacc = t.crcacc)) ∧
    (∀ f, exec i s = .fault f → exec i s2 = .fault f)

/-- Every command completes when the host has written the operands it reads (70_reset_and_hazards.md R249;
43_container.md R178): `CRC.TBL`, `CRC.SUM`, `DCA.COMP`, `DCA.DECOMP`, `HDR.ENC`, `HDR.DEC`, `PK.REPACK`, `PK.UNPACK`
and `PK.VALID`. -/
def Obligations.CommandsCompleteOnWrittenOperands : Prop :=
  ∀ (i : Instr) (s : State), s.OperandsWritten i → ∃ t, exec i s = .next t

/-- 70_reset_and_hazards.md R252: a command that reads an unwritten SRC cell faults, naming the command and the first
unwritten index; there is no other way for a command to stop. -/
def Obligations.UnwrittenOperandFaults : Prop :=
  (∀ (i : Instr) (s : State), ¬ s.OperandsWritten i →
    ∃ a, exec i s = .fault (.unwrittenSource i a) ∧ a < s.srclen.toNat ∧ Memory.read s.src a = none ∧
      ∀ b, b < a → (Memory.read s.src b).isSome = true) ∧
  (∀ (i : Instr) (s : State) (f : Fault), exec i s = .fault f → ¬ s.OperandsWritten i) ∧
  (∀ (i : Instr) (s : State) (r : Refusal), exec i s ≠ .refused r)

/-! ### The external operations -/

/-- The expansions of 30_encoding.md R102: the lines of each operation up to `R STATUS`, and those that follow it by
the answers. -/
def Obligations.HostOperationsAreTheListedSequences : Prop :=
  (∀ file, (HostOp.unpack file).lines =
    [.writeSrc 0 file, .writeReg .srclen (BitVec.ofNat 32 file.length), .command (.pkUnpack false),
      .readReg .status]) ∧
  (∀ payload, (HostOp.repack payload).lines =
    [.writeSrc 0 payload, .writeReg .srclen (BitVec.ofNat 32 payload.length), .command .pkRepack,
      .readReg .status]) ∧
  (∀ file, (HostOp.validate file).lines =
    [.writeSrc 0 (file.take 64), .writeReg .srclen (BitVec.ofNat 32 (file.take 64).length), .command .pkValid,
      .readReg .status]) ∧
  (∀ (bytes : List Byte) (status dstlen : Word),
    (status.extractLsb' 8 4 = 0#4 →
      (HostOp.unpack bytes).linesAfter [.word status] = [.readReg .dstlen] ∧
      (HostOp.repack bytes).linesAfter [.word status] = [.readDst 0 524288]) ∧
    (status.extractLsb' 8 4 ≠ 0#4 →
      (HostOp.unpack bytes).linesAfter [.word status] = [] ∧
      (HostOp.repack bytes).linesAfter [.word status] = []) ∧
    (HostOp.unpack bytes).linesAfter [.word status, .word dstlen] = [.readDst 0 dstlen.toNat] ∧
    ∀ answers, (HostOp.validate bytes).linesAfter answers = [])

/-- What the external operations do on the block (30_encoding.md R102): bytes that fit are loaded, the operation's
command runs on them, and the result is the content of `DST` (of `validate`, nothing) on `ERR = 0` and the error's
number otherwise; bytes longer than `BUF_CAP` are not loaded. That the accesses are made one step each, with no
other access between them, is the model's own (log 20). -/
def Obligations.HostOperationsReturnTheResultOrTheError : Prop :=
  ∀ (op : HostOp) (s : State),
    (config.bufCap < op.loads.length → op.run s = .next (s, some .tooLong)) ∧
    (op.loads.length ≤ config.bufCap →
      ∃ (u v t : State) (r : HostResult), op.run s = .next (t, some r) ∧
        u = { s with src := u.src, srclen := BitVec.ofNat 32 op.loads.length } ∧ u.Source op.loads ∧
        exec op.command u = .next v ∧ t = { v with reads := t.reads } ∧
        r = if v.status.err = .none then
              .ok (match op with
                | .validate _ => []
                | .unpack _ | .repack _ => v.dst)
            else .err v.status.err.code)

/-- The source's scenarios S1, S2 and S5 of 95_test_vectors.md, section 1, through the host's operations: `repack` of
a payload that fits SRC returns one of its errors (43_container.md R184), or a file of exactly 524288 bytes that
`unpack` then turns back into the payload (R191) and `validate` then accepts (R196). -/
def Obligations.HostRoundTrip : Prop :=
  ∀ (s : State) (p : List Byte), s.TableOk → p.length ≤ config.bufCap →
    ∃ (t : State) (r : HostResult), (HostOp.repack p).run s = .next (t, some r) ∧
      ((∃ e, e ∈ [ErrCode.oversize, .compressStream, .compressData, .compressMemory, .compressBuffer] ∧
          r = .err e.code) ∨
        ∃ file, r = .ok file ∧ file.length = 524288 ∧
          ∃ u, (HostOp.unpack file).run t = .next (u, some (.ok p)) ∧
            ∃ v, (HostOp.validate file).run u = .next (v, some (.ok [])))
end

