-- ==== Sys2Proof/Laws/State.lean ====
section
/-! SUPPORT. One lemma per field per update of the state, true by rfl, so that no later proof unfolds a record
update. -/

namespace Sys2Proof.Machine

variable (s : State)

/-! ### `State.begin` -/

@[simp] theorem State.begin_status (p : Phase) : (s.begin p).status = s.status := rfl
@[simp] theorem State.begin_srclen (p : Phase) : (s.begin p).srclen = s.srclen := rfl
@[simp] theorem State.begin_exp (p : Phase) : (s.begin p).exp = s.exp := rfl
@[simp] theorem State.begin_crcacc (p : Phase) : (s.begin p).crcacc = s.crcacc := rfl
@[simp] theorem State.begin_h (p : Phase) : (s.begin p).h = s.h := rfl
@[simp] theorem State.begin_table (p : Phase) : (s.begin p).table = s.table := rfl
@[simp] theorem State.begin_tv (p : Phase) : (s.begin p).tv = s.tv := rfl
@[simp] theorem State.begin_src (p : Phase) : (s.begin p).src = s.src := rfl
@[simp] theorem State.begin_dst (p : Phase) : (s.begin p).dst = s.dst := rfl
@[simp] theorem State.begin_seq (p : Phase) : (s.begin p).seq = { Sequencer.idle with phase := p } := rfl
@[simp] theorem State.begin_host (p : Phase) : (s.begin p).host = s.host := rfl
@[simp] theorem State.begin_reads (p : Phase) : (s.begin p).reads = s.reads := rfl
@[simp] theorem State.begin_draws (p : Phase) : (s.begin p).draws = s.draws := rfl

/-! ### `State.enter` -/

@[simp] theorem State.enter_status (p : Phase) : (s.enter p).status = s.status := rfl
@[simp] theorem State.enter_srclen (p : Phase) : (s.enter p).srclen = s.srclen := rfl
@[simp] theorem State.enter_exp (p : Phase) : (s.enter p).exp = s.exp := rfl
@[simp] theorem State.enter_crcacc (p : Phase) : (s.enter p).crcacc = s.crcacc := rfl
@[simp] theorem State.enter_h (p : Phase) : (s.enter p).h = s.h := rfl
@[simp] theorem State.enter_table (p : Phase) : (s.enter p).table = s.table := rfl
@[simp] theorem State.enter_tv (p : Phase) : (s.enter p).tv = s.tv := rfl
@[simp] theorem State.enter_src (p : Phase) : (s.enter p).src = s.src := rfl
@[simp] theorem State.enter_dst (p : Phase) : (s.enter p).dst = s.dst := rfl
@[simp] theorem State.enter_seq (p : Phase) : (s.enter p).seq = { s.seq with phase := p } := rfl
@[simp] theorem State.enter_host (p : Phase) : (s.enter p).host = s.host := rfl
@[simp] theorem State.enter_reads (p : Phase) : (s.enter p).reads = s.reads := rfl
@[simp] theorem State.enter_draws (p : Phase) : (s.enter p).draws = s.draws := rfl

/-! ### `State.latchHeader` -/

@[simp] theorem State.latchHeader_status (h : Header) : (s.latchHeader h).status = s.status := rfl
@[simp] theorem State.latchHeader_srclen (h : Header) : (s.latchHeader h).srclen = s.srclen := rfl
@[simp] theorem State.latchHeader_exp (h : Header) : (s.latchHeader h).exp = s.exp := rfl
@[simp] theorem State.latchHeader_crcacc (h : Header) : (s.latchHeader h).crcacc = s.crcacc := rfl
@[simp] theorem State.latchHeader_h (h : Header) : (s.latchHeader h).h = s.h := rfl
@[simp] theorem State.latchHeader_table (h : Header) : (s.latchHeader h).table = s.table := rfl
@[simp] theorem State.latchHeader_tv (h : Header) : (s.latchHeader h).tv = s.tv := rfl
@[simp] theorem State.latchHeader_src (h : Header) : (s.latchHeader h).src = s.src := rfl
@[simp] theorem State.latchHeader_dst (h : Header) : (s.latchHeader h).dst = s.dst := rfl
@[simp] theorem State.latchHeader_seq (h : Header) : (s.latchHeader h).seq = { s.seq with hl := h } := rfl
@[simp] theorem State.latchHeader_host (h : Header) : (s.latchHeader h).host = s.host := rfl
@[simp] theorem State.latchHeader_reads (h : Header) : (s.latchHeader h).reads = s.reads := rfl
@[simp] theorem State.latchHeader_draws (h : Header) : (s.latchHeader h).draws = s.draws := rfl

/-! ### `State.stage` -/

@[simp] theorem State.stage_status (bytes : List Byte) : (s.stage bytes).status = s.status := rfl
@[simp] theorem State.stage_srclen (bytes : List Byte) : (s.stage bytes).srclen = s.srclen := rfl
@[simp] theorem State.stage_exp (bytes : List Byte) : (s.stage bytes).exp = s.exp := rfl
@[simp] theorem State.stage_crcacc (bytes : List Byte) : (s.stage bytes).crcacc = s.crcacc := rfl
@[simp] theorem State.stage_h (bytes : List Byte) : (s.stage bytes).h = s.h := rfl
@[simp] theorem State.stage_table (bytes : List Byte) : (s.stage bytes).table = s.table := rfl
@[simp] theorem State.stage_tv (bytes : List Byte) : (s.stage bytes).tv = s.tv := rfl
@[simp] theorem State.stage_src (bytes : List Byte) : (s.stage bytes).src = s.src := rfl
@[simp] theorem State.stage_dst (bytes : List Byte) : (s.stage bytes).dst = s.dst := rfl
@[simp] theorem State.stage_seq (bytes : List Byte) : (s.stage bytes).seq = { s.seq with wrk := bytes } := rfl
@[simp] theorem State.stage_host (bytes : List Byte) : (s.stage bytes).host = s.host := rfl
@[simp] theorem State.stage_reads (bytes : List Byte) : (s.stage bytes).reads = s.reads := rfl
@[simp] theorem State.stage_draws (bytes : List Byte) : (s.stage bytes).draws = s.draws := rfl

/-! ### `State.putDst` -/

@[simp] theorem State.putDst_status (bytes : List Byte) : (s.putDst bytes).status = s.status := rfl
@[simp] theorem State.putDst_srclen (bytes : List Byte) : (s.putDst bytes).srclen = s.srclen := rfl
@[simp] theorem State.putDst_exp (bytes : List Byte) : (s.putDst bytes).exp = s.exp := rfl
@[simp] theorem State.putDst_crcacc (bytes : List Byte) : (s.putDst bytes).crcacc = s.crcacc := rfl
@[simp] theorem State.putDst_h (bytes : List Byte) : (s.putDst bytes).h = s.h := rfl
@[simp] theorem State.putDst_table (bytes : List Byte) : (s.putDst bytes).table = s.table := rfl
@[simp] theorem State.putDst_tv (bytes : List Byte) : (s.putDst bytes).tv = s.tv := rfl
@[simp] theorem State.putDst_src (bytes : List Byte) : (s.putDst bytes).src = s.src := rfl
@[simp] theorem State.putDst_dst (bytes : List Byte) : (s.putDst bytes).dst = bytes := rfl
@[simp] theorem State.putDst_seq (bytes : List Byte) : (s.putDst bytes).seq = s.seq := rfl
@[simp] theorem State.putDst_host (bytes : List Byte) : (s.putDst bytes).host = s.host := rfl
@[simp] theorem State.putDst_reads (bytes : List Byte) : (s.putDst bytes).reads = s.reads := rfl
@[simp] theorem State.putDst_draws (bytes : List Byte) : (s.putDst bytes).draws = s.draws := rfl

/-! ### `State.raise` -/

@[simp] theorem State.raise_status (i : Instr) (e : ErrCode) : (s.raise i e).status = .failure e s.seq.phase := rfl
@[simp] theorem State.raise_srclen (i : Instr) (e : ErrCode) : (s.raise i e).srclen = s.srclen := rfl
@[simp] theorem State.raise_exp (i : Instr) (e : ErrCode) : (s.raise i e).exp = s.exp := rfl
@[simp] theorem State.raise_crcacc (i : Instr) (e : ErrCode) : (s.raise i e).crcacc = s.crcacc := rfl
@[simp] theorem State.raise_h (i : Instr) (e : ErrCode) : (s.raise i e).h = s.h := rfl
@[simp] theorem State.raise_table (i : Instr) (e : ErrCode) : (s.raise i e).table = s.table := rfl
@[simp] theorem State.raise_tv (i : Instr) (e : ErrCode) : (s.raise i e).tv = s.tv := rfl
@[simp] theorem State.raise_src (i : Instr) (e : ErrCode) : (s.raise i e).src = s.src := rfl
@[simp] theorem State.raise_dst (i : Instr) (e : ErrCode) : (s.raise i e).dst = if producesBytes i then [] else s.dst := rfl
@[simp] theorem State.raise_seq (i : Instr) (e : ErrCode) : (s.raise i e).seq = .idle := rfl
@[simp] theorem State.raise_host (i : Instr) (e : ErrCode) : (s.raise i e).host = s.host := rfl
@[simp] theorem State.raise_reads (i : Instr) (e : ErrCode) : (s.raise i e).reads = s.reads := rfl
@[simp] theorem State.raise_draws (i : Instr) (e : ErrCode) : (s.raise i e).draws = s.draws := rfl

/-! ### `State.complete` -/

@[simp] theorem State.complete_status : s.complete.status = .success := rfl
@[simp] theorem State.complete_srclen : s.complete.srclen = s.srclen := rfl
@[simp] theorem State.complete_exp : s.complete.exp = s.exp := rfl
@[simp] theorem State.complete_crcacc : s.complete.crcacc = s.crcacc := rfl
@[simp] theorem State.complete_h : s.complete.h = s.h := rfl
@[simp] theorem State.complete_table : s.complete.table = s.table := rfl
@[simp] theorem State.complete_tv : s.complete.tv = s.tv := rfl
@[simp] theorem State.complete_src : s.complete.src = s.src := rfl
@[simp] theorem State.complete_dst : s.complete.dst = s.dst := rfl
@[simp] theorem State.complete_seq : s.complete.seq = .idle := rfl
@[simp] theorem State.complete_host : s.complete.host = s.host := rfl
@[simp] theorem State.complete_reads : s.complete.reads = s.reads := rfl
@[simp] theorem State.complete_draws : s.complete.draws = s.draws := rfl

/-! ### `State.refuse` -/

@[simp] theorem State.refuse_status : s.refuse.status = .refusal := rfl
@[simp] theorem State.refuse_srclen : s.refuse.srclen = s.srclen := rfl
@[simp] theorem State.refuse_exp : s.refuse.exp = s.exp := rfl
@[simp] theorem State.refuse_crcacc : s.refuse.crcacc = s.crcacc := rfl
@[simp] theorem State.refuse_h : s.refuse.h = s.h := rfl
@[simp] theorem State.refuse_table : s.refuse.table = s.table := rfl
@[simp] theorem State.refuse_tv : s.refuse.tv = s.tv := rfl
@[simp] theorem State.refuse_src : s.refuse.src = s.src := rfl
@[simp] theorem State.refuse_dst : s.refuse.dst = s.dst := rfl
@[simp] theorem State.refuse_seq : s.refuse.seq = s.seq := rfl
@[simp] theorem State.refuse_host : s.refuse.host = s.host := rfl
@[simp] theorem State.refuse_reads : s.refuse.reads = s.reads := rfl
@[simp] theorem State.refuse_draws : s.refuse.draws = s.draws := rfl

/-! ### `State.buildTable` -/

@[simp] theorem State.buildTable_status : s.buildTable.status = s.status := rfl
@[simp] theorem State.buildTable_srclen : s.buildTable.srclen = s.srclen := rfl
@[simp] theorem State.buildTable_exp : s.buildTable.exp = s.exp := rfl
@[simp] theorem State.buildTable_crcacc : s.buildTable.crcacc = s.crcacc := rfl
@[simp] theorem State.buildTable_h : s.buildTable.h = s.h := rfl
@[simp] theorem State.buildTable_table : s.buildTable.table = crcTable := rfl
@[simp] theorem State.buildTable_tv : s.buildTable.tv = true := rfl
@[simp] theorem State.buildTable_src : s.buildTable.src = s.src := rfl
@[simp] theorem State.buildTable_dst : s.buildTable.dst = s.dst := rfl
@[simp] theorem State.buildTable_seq : s.buildTable.seq = s.seq := rfl
@[simp] theorem State.buildTable_host : s.buildTable.host = s.host := rfl
@[simp] theorem State.buildTable_reads : s.buildTable.reads = s.reads := rfl
@[simp] theorem State.buildTable_draws : s.buildTable.draws = s.draws := rfl

/-! ### `State.runCrc` -/

@[simp] theorem State.runCrc_status (bytes : List Byte) : (s.runCrc bytes).status = s.status := rfl
@[simp] theorem State.runCrc_srclen (bytes : List Byte) : (s.runCrc bytes).srclen = s.srclen := rfl
@[simp] theorem State.runCrc_exp (bytes : List Byte) : (s.runCrc bytes).exp = s.exp := rfl
@[simp] theorem State.runCrc_crcacc (bytes : List Byte) : (s.runCrc bytes).crcacc = s.crcacc := rfl
@[simp] theorem State.runCrc_h (bytes : List Byte) : (s.runCrc bytes).h = s.h := rfl
@[simp] theorem State.runCrc_table (bytes : List Byte) : (s.runCrc bytes).table = s.table := rfl
@[simp] theorem State.runCrc_tv (bytes : List Byte) : (s.runCrc bytes).tv = s.tv := rfl
@[simp] theorem State.runCrc_src (bytes : List Byte) : (s.runCrc bytes).src = s.src := rfl
@[simp] theorem State.runCrc_dst (bytes : List Byte) : (s.runCrc bytes).dst = s.dst := rfl
@[simp] theorem State.runCrc_seq (bytes : List Byte) : (s.runCrc bytes).seq = { s.seq with acc := checksum s.table bytes } := rfl
@[simp] theorem State.runCrc_host (bytes : List Byte) : (s.runCrc bytes).host = s.host := rfl
@[simp] theorem State.runCrc_reads (bytes : List Byte) : (s.runCrc bytes).reads = s.reads := rfl
@[simp] theorem State.runCrc_draws (bytes : List Byte) : (s.runCrc bytes).draws = s.draws := rfl

/-! ### `State.putCrcacc` -/

@[simp] theorem State.putCrcacc_status : s.putCrcacc.status = s.status := rfl
@[simp] theorem State.putCrcacc_srclen : s.putCrcacc.srclen = s.srclen := rfl
@[simp] theorem State.putCrcacc_exp : s.putCrcacc.exp = s.exp := rfl
@[simp] theorem State.putCrcacc_crcacc : s.putCrcacc.crcacc = s.seq.acc := rfl
@[simp] theorem State.putCrcacc_h : s.putCrcacc.h = s.h := rfl
@[simp] theorem State.putCrcacc_table : s.putCrcacc.table = s.table := rfl
@[simp] theorem State.putCrcacc_tv : s.putCrcacc.tv = s.tv := rfl
@[simp] theorem State.putCrcacc_src : s.putCrcacc.src = s.src := rfl
@[simp] theorem State.putCrcacc_dst : s.putCrcacc.dst = s.dst := rfl
@[simp] theorem State.putCrcacc_seq : s.putCrcacc.seq = s.seq := rfl
@[simp] theorem State.putCrcacc_host : s.putCrcacc.host = s.host := rfl
@[simp] theorem State.putCrcacc_reads : s.putCrcacc.reads = s.reads := rfl
@[simp] theorem State.putCrcacc_draws : s.putCrcacc.draws = s.draws := rfl

/-! ### `State.putHeader` -/

@[simp] theorem State.putHeader_status (h : Header) : (s.putHeader h).status = s.status := rfl
@[simp] theorem State.putHeader_srclen (h : Header) : (s.putHeader h).srclen = s.srclen := rfl
@[simp] theorem State.putHeader_exp (h : Header) : (s.putHeader h).exp = s.exp := rfl
@[simp] theorem State.putHeader_crcacc (h : Header) : (s.putHeader h).crcacc = s.crcacc := rfl
@[simp] theorem State.putHeader_h (h : Header) : (s.putHeader h).h = h := rfl
@[simp] theorem State.putHeader_table (h : Header) : (s.putHeader h).table = s.table := rfl
@[simp] theorem State.putHeader_tv (h : Header) : (s.putHeader h).tv = s.tv := rfl
@[simp] theorem State.putHeader_src (h : Header) : (s.putHeader h).src = s.src := rfl
@[simp] theorem State.putHeader_dst (h : Header) : (s.putHeader h).dst = s.dst := rfl
@[simp] theorem State.putHeader_seq (h : Header) : (s.putHeader h).seq = s.seq := rfl
@[simp] theorem State.putHeader_host (h : Header) : (s.putHeader h).host = s.host := rfl
@[simp] theorem State.putHeader_reads (h : Header) : (s.putHeader h).reads = s.reads := rfl
@[simp] theorem State.putHeader_draws (h : Header) : (s.putHeader h).draws = s.draws := rfl

/-! ### `State.reply` -/

@[simp] theorem State.reply_status (a : HostRead) : (s.reply a).status = s.status := rfl
@[simp] theorem State.reply_srclen (a : HostRead) : (s.reply a).srclen = s.srclen := rfl
@[simp] theorem State.reply_exp (a : HostRead) : (s.reply a).exp = s.exp := rfl
@[simp] theorem State.reply_crcacc (a : HostRead) : (s.reply a).crcacc = s.crcacc := rfl
@[simp] theorem State.reply_h (a : HostRead) : (s.reply a).h = s.h := rfl
@[simp] theorem State.reply_table (a : HostRead) : (s.reply a).table = s.table := rfl
@[simp] theorem State.reply_tv (a : HostRead) : (s.reply a).tv = s.tv := rfl
@[simp] theorem State.reply_src (a : HostRead) : (s.reply a).src = s.src := rfl
@[simp] theorem State.reply_dst (a : HostRead) : (s.reply a).dst = s.dst := rfl
@[simp] theorem State.reply_seq (a : HostRead) : (s.reply a).seq = s.seq := rfl
@[simp] theorem State.reply_host (a : HostRead) : (s.reply a).host = s.host := rfl
@[simp] theorem State.reply_reads (a : HostRead) : (s.reply a).reads = a :: s.reads := rfl
@[simp] theorem State.reply_draws (a : HostRead) : (s.reply a).draws = s.draws := rfl

/-! ### `State.replyFreeWord` -/

@[simp] theorem State.replyFreeWord_status : s.replyFreeWord.status = s.status := rfl
@[simp] theorem State.replyFreeWord_srclen : s.replyFreeWord.srclen = s.srclen := rfl
@[simp] theorem State.replyFreeWord_exp : s.replyFreeWord.exp = s.exp := rfl
@[simp] theorem State.replyFreeWord_crcacc : s.replyFreeWord.crcacc = s.crcacc := rfl
@[simp] theorem State.replyFreeWord_h : s.replyFreeWord.h = s.h := rfl
@[simp] theorem State.replyFreeWord_table : s.replyFreeWord.table = s.table := rfl
@[simp] theorem State.replyFreeWord_tv : s.replyFreeWord.tv = s.tv := rfl
@[simp] theorem State.replyFreeWord_src : s.replyFreeWord.src = s.src := rfl
@[simp] theorem State.replyFreeWord_dst : s.replyFreeWord.dst = s.dst := rfl
@[simp] theorem State.replyFreeWord_seq : s.replyFreeWord.seq = s.seq := rfl
@[simp] theorem State.replyFreeWord_host : s.replyFreeWord.host = s.host := rfl
@[simp] theorem State.replyFreeWord_reads : s.replyFreeWord.reads = .word (Config.freeWord s.draws) :: s.reads := rfl
@[simp] theorem State.replyFreeWord_draws : s.replyFreeWord.draws = s.draws + 1 := rfl

/-! ### `State.replyFreeByte` -/

@[simp] theorem State.replyFreeByte_status : s.replyFreeByte.status = s.status := rfl
@[simp] theorem State.replyFreeByte_srclen : s.replyFreeByte.srclen = s.srclen := rfl
@[simp] theorem State.replyFreeByte_exp : s.replyFreeByte.exp = s.exp := rfl
@[simp] theorem State.replyFreeByte_crcacc : s.replyFreeByte.crcacc = s.crcacc := rfl
@[simp] theorem State.replyFreeByte_h : s.replyFreeByte.h = s.h := rfl
@[simp] theorem State.replyFreeByte_table : s.replyFreeByte.table = s.table := rfl
@[simp] theorem State.replyFreeByte_tv : s.replyFreeByte.tv = s.tv := rfl
@[simp] theorem State.replyFreeByte_src : s.replyFreeByte.src = s.src := rfl
@[simp] theorem State.replyFreeByte_dst : s.replyFreeByte.dst = s.dst := rfl
@[simp] theorem State.replyFreeByte_seq : s.replyFreeByte.seq = s.seq := rfl
@[simp] theorem State.replyFreeByte_host : s.replyFreeByte.host = s.host := rfl
@[simp] theorem State.replyFreeByte_reads : s.replyFreeByte.reads = .byte (Config.freeByte s.draws) :: s.reads := rfl
@[simp] theorem State.replyFreeByte_draws : s.replyFreeByte.draws = s.draws + 1 := rfl

/-! ### Reads of the source depend on `src` and `srclen` alone -/

@[simp] theorem State.begin_memRead (p : Phase) (a n : Nat) : (s.begin p).memRead a n = s.memRead a n := rfl
@[simp] theorem State.begin_sourceBytes (p : Phase) : (s.begin p).sourceBytes = s.sourceBytes := rfl
@[simp] theorem State.enter_memRead (p : Phase) (a n : Nat) : (s.enter p).memRead a n = s.memRead a n := rfl
@[simp] theorem State.enter_sourceBytes (p : Phase) : (s.enter p).sourceBytes = s.sourceBytes := rfl
@[simp] theorem State.latchHeader_memRead (h : Header) (a n : Nat) : (s.latchHeader h).memRead a n = s.memRead a n := rfl
@[simp] theorem State.latchHeader_sourceBytes (h : Header) : (s.latchHeader h).sourceBytes = s.sourceBytes := rfl
@[simp] theorem State.stage_memRead (bytes : List Byte) (a n : Nat) : (s.stage bytes).memRead a n = s.memRead a n := rfl
@[simp] theorem State.stage_sourceBytes (bytes : List Byte) : (s.stage bytes).sourceBytes = s.sourceBytes := rfl
@[simp] theorem State.putDst_memRead (bytes : List Byte) (a n : Nat) : (s.putDst bytes).memRead a n = s.memRead a n := rfl
@[simp] theorem State.putDst_sourceBytes (bytes : List Byte) : (s.putDst bytes).sourceBytes = s.sourceBytes := rfl
@[simp] theorem State.raise_memRead (i : Instr) (e : ErrCode) (a n : Nat) : (s.raise i e).memRead a n = s.memRead a n := rfl
@[simp] theorem State.raise_sourceBytes (i : Instr) (e : ErrCode) : (s.raise i e).sourceBytes = s.sourceBytes := rfl
@[simp] theorem State.complete_memRead (a n : Nat) : s.complete.memRead a n = s.memRead a n := rfl
@[simp] theorem State.complete_sourceBytes : s.complete.sourceBytes = s.sourceBytes := rfl
@[simp] theorem State.refuse_memRead (a n : Nat) : s.refuse.memRead a n = s.memRead a n := rfl
@[simp] theorem State.refuse_sourceBytes : s.refuse.sourceBytes = s.sourceBytes := rfl
@[simp] theorem State.buildTable_memRead (a n : Nat) : s.buildTable.memRead a n = s.memRead a n := rfl
@[simp] theorem State.buildTable_sourceBytes : s.buildTable.sourceBytes = s.sourceBytes := rfl
@[simp] theorem State.runCrc_memRead (bytes : List Byte) (a n : Nat) : (s.runCrc bytes).memRead a n = s.memRead a n := rfl
@[simp] theorem State.runCrc_sourceBytes (bytes : List Byte) : (s.runCrc bytes).sourceBytes = s.sourceBytes := rfl
@[simp] theorem State.putCrcacc_memRead (a n : Nat) : s.putCrcacc.memRead a n = s.memRead a n := rfl
@[simp] theorem State.putCrcacc_sourceBytes : s.putCrcacc.sourceBytes = s.sourceBytes := rfl
@[simp] theorem State.putHeader_memRead (h : Header) (a n : Nat) : (s.putHeader h).memRead a n = s.memRead a n := rfl
@[simp] theorem State.putHeader_sourceBytes (h : Header) : (s.putHeader h).sourceBytes = s.sourceBytes := rfl

/-! ### `State.ensureTable` (40_crc.md R123) -/

@[simp] theorem State.ensureTable_status : s.ensureTable.status = s.status := by unfold State.ensureTable; split <;> rfl
@[simp] theorem State.ensureTable_srclen : s.ensureTable.srclen = s.srclen := by unfold State.ensureTable; split <;> rfl
@[simp] theorem State.ensureTable_exp : s.ensureTable.exp = s.exp := by unfold State.ensureTable; split <;> rfl
@[simp] theorem State.ensureTable_crcacc : s.ensureTable.crcacc = s.crcacc := by unfold State.ensureTable; split <;> rfl
@[simp] theorem State.ensureTable_h : s.ensureTable.h = s.h := by unfold State.ensureTable; split <;> rfl
@[simp] theorem State.ensureTable_src : s.ensureTable.src = s.src := by unfold State.ensureTable; split <;> rfl
@[simp] theorem State.ensureTable_dst : s.ensureTable.dst = s.dst := by unfold State.ensureTable; split <;> rfl
@[simp] theorem State.ensureTable_seq : s.ensureTable.seq = s.seq := by unfold State.ensureTable; split <;> rfl
@[simp] theorem State.ensureTable_host : s.ensureTable.host = s.host := by unfold State.ensureTable; split <;> rfl
@[simp] theorem State.ensureTable_reads : s.ensureTable.reads = s.reads := by unfold State.ensureTable; split <;> rfl
@[simp] theorem State.ensureTable_draws : s.ensureTable.draws = s.draws := by unfold State.ensureTable; split <;> rfl
@[simp] theorem State.ensureTable_tv : s.ensureTable.tv = true := by
  unfold State.ensureTable; split <;> simp_all
theorem State.ensureTable_table (h : s.TableOk) : s.ensureTable.table = crcTable := by
  unfold State.ensureTable; split
  · exact h ‹_›
  · rfl
@[simp] theorem State.ensureTable_memRead (a n : Nat) : s.ensureTable.memRead a n = s.memRead a n := by
  simp [State.memRead]
@[simp] theorem State.ensureTable_sourceBytes : s.ensureTable.sourceBytes = s.sourceBytes := by
  simp [State.sourceBytes]

/-! ### The `STATUS` words of the outcomes (10_state.md R26) -/

theorem State.statusWord_eq : s.statusWord = statusBits s.status s.tv := rfl
@[simp] theorem statusBits_success (tv : Bool) :
    statusBits .success tv = if tv then 0x000000F5#32 else 0x000000F1#32 := by cases tv <;> decide
@[simp] theorem statusBits_refusal (tv : Bool) :
    statusBits .refusal tv = if tv then 0x000000E7#32 else 0x000000E3#32 := by cases tv <;> decide

/-! ### Header registers by index (10_state.md R22) -/

@[simp] theorem Header.get_set_same (h : Header) (k : Fin 8) (v : Word) : (h.set k v).get k = v := by
  fin_cases k <;> rfl
theorem Header.get_set_other (h : Header) (k j : Fin 8) (v : Word) (hne : j ≠ k) :
    (h.set k v).get j = h.get j := by
  fin_cases k <;> fin_cases j <;> first | rfl | exact absurd rfl hne

end Sys2Proof.Machine
end

