-- ==== Sys2Proof/Laws/Memory.lean ====
section
/-! SUPPORT. The basic laws of the byte cells: a read after a write, the canonical form kept by every memory
operation, and what a range read answers. -/

namespace Sys2Proof.Machine

/-! ### Read after write (20_memory.md R61) -/

@[simp] theorem Memory.read_write_same (m : Memory) (a : Nat) (b : Byte) :
    Memory.read (Memory.write m a b) a = some b := by
  induction m with
  | nil => simp [Memory.write, Memory.read]
  | cons c m ih =>
    obtain ⟨x, y⟩ := c
    simp only [Memory.write]
    split
    · simp [Memory.read]
    · split
      · simp [Memory.read]
      · rename_i h1 h2
        simp [Memory.read, Ne.symm h2, ih]

theorem Memory.read_write_other (m : Memory) (a a' : Nat) (b : Byte) (hne : a' ≠ a) :
    Memory.read (Memory.write m a b) a' = Memory.read m a' := by
  induction m with
  | nil => simp [Memory.write, Memory.read, Ne.symm hne]
  | cons c m ih =>
    obtain ⟨x, y⟩ := c
    simp only [Memory.write]
    split
    · simp [Memory.read, Ne.symm hne]
    · split
      · rename_i h1 h2; subst h2; simp [Memory.read, Ne.symm hne]
      · simp [Memory.read, ih]

/-! ### The canonical form -/

theorem Memory.mem_write (m : Memory) (a : Nat) (b : Byte) (c : Host.Cell) (hc : c ∈ Memory.write m a b) :
    c = (a, b) ∨ c ∈ m := by
  induction m with
  | nil => simpa [Memory.write] using hc
  | cons d m ih =>
    obtain ⟨x, y⟩ := d
    simp only [Memory.write] at hc
    split at hc
    · simpa using hc
    · split at hc
      · rcases List.mem_cons.mp hc with h | h
        · exact .inl h
        · exact .inr (List.mem_cons_of_mem _ h)
      · rcases List.mem_cons.mp hc with h | h
        · exact .inr (h ▸ List.mem_cons_self)
        · exact (ih h).imp id (List.mem_cons_of_mem _)

/-- A write keeps the canonical form. -/
theorem Memory.write_wf (m : Memory) (a : Nat) (b : Byte) (hm : Memory.wf m) : Memory.wf (Memory.write m a b) := by
  induction m with
  | nil => simp [Memory.write, Memory.wf]
  | cons d m ih =>
    obtain ⟨x, y⟩ := d
    have hx : ∀ c ∈ m, x < c.1 := fun c hc => (List.pairwise_cons.mp hm).1 c hc
    have hm' : Memory.wf m := (List.pairwise_cons.mp hm).2
    simp only [Memory.write]
    split
    · rename_i hlt
      refine List.pairwise_cons.mpr ⟨fun c hc => ?_, hm⟩
      rcases List.mem_cons.mp hc with h | h
      · subst h; exact hlt
      · exact Nat.lt_trans hlt (hx c h)
    · split
      · rename_i h1 h2
        subst h2
        exact List.pairwise_cons.mpr ⟨hx, hm'⟩
      · rename_i h1 h2
        refine List.pairwise_cons.mpr ⟨fun c hc => ?_, ih hm'⟩
        rcases Memory.mem_write m a b c hc with h | h
        · subst h; show x < a; omega
        · exact hx c h

theorem Memory.reset_wf : Memory.wf State.reset.src := List.Pairwise.nil

/-! ### Range reads (20_memory.md R77) -/

/-- A range read answers bytes exactly when every cell of the range is written, and then those bytes. -/
theorem Memory.readRange_ok_iff (m : Memory) (a n : Nat) (bytes : List Byte) :
    Memory.readRange m a n = .ok bytes ↔
      bytes.length = n ∧ ∀ k, (hk : k < bytes.length) → Memory.read m (a + k) = some bytes[k] := by
  induction n generalizing a bytes with
  | zero =>
    simp only [Memory.readRange, Except.ok.injEq, List.length_eq_zero_iff]
    constructor
    · rintro rfl; simp
    · exact fun h => h.1.symm
  | succ n ih =>
    simp only [Memory.readRange]
    constructor
    · intro h
      split at h
      · cases h
      · rename_i b hb
        split at h
        · rename_i bs hbs
          cases h
          obtain ⟨hl, hr⟩ := (ih (a + 1) bs).mp hbs
          refine ⟨by simp [hl], fun k hk => ?_⟩
          cases k with
          | zero => simpa using hb
          | succ k =>
            have := hr k (by simpa using hk)
            simpa [Nat.add_assoc, Nat.add_comm 1 k] using this
        · cases h
    · rintro ⟨hl, hr⟩
      cases bytes with
      | nil => simp at hl
      | cons b bs =>
        have hb := hr 0 (by simp)
        simp only [Nat.add_zero, List.getElem_cons_zero] at hb
        have hbs : Memory.readRange m (a + 1) n = .ok bs := by
          refine (ih (a + 1) bs).mpr ⟨by simpa using hl, fun k hk => ?_⟩
          have := hr (k + 1) (by simpa using hk)
          simpa [Nat.add_assoc, Nat.add_comm 1 k] using this
        simp [hb, hbs]

/-- A range read answers an index exactly when that index is the first unwritten cell of the range. -/
theorem Memory.readRange_error_iff (m : Memory) (a n e : Nat) :
    Memory.readRange m a n = .error e ↔
      a ≤ e ∧ e < a + n ∧ Memory.read m e = none ∧ ∀ x, a ≤ x → x < e → (Memory.read m x).isSome := by
  induction n generalizing a with
  | zero =>
    simp only [Memory.readRange, reduceCtorEq, false_iff]
    rintro ⟨h1, h2, -⟩; omega
  | succ n ih =>
    simp only [Memory.readRange]
    split
    · rename_i hb
      simp only [Except.error.injEq]
      constructor
      · rintro rfl
        exact ⟨Nat.le_refl _, by omega, hb, fun x h1 h2 => by omega⟩
      · rintro ⟨h1, h2, h3, h4⟩
        rcases Nat.eq_or_lt_of_le h1 with h | h
        · exact h
        · have := h4 a (Nat.le_refl _) h; simp [hb] at this
    · rename_i b hb
      have key : Memory.readRange m (a + 1) n = .error e ↔
          a ≤ e ∧ e < a + (n + 1) ∧ Memory.read m e = none ∧ ∀ x, a ≤ x → x < e → (Memory.read m x).isSome := by
        rw [ih (a + 1)]
        constructor
        · rintro ⟨h1, h2, h3, h4⟩
          refine ⟨by omega, by omega, h3, fun x hx1 hx2 => ?_⟩
          rcases Nat.eq_or_lt_of_le hx1 with h | h
          · subst h; simp [hb]
          · exact h4 x h hx2
        · rintro ⟨h1, h2, h3, h4⟩
          have hne : a ≠ e := by rintro rfl; simp [hb] at h3
          exact ⟨by omega, by omega, h3, fun x hx1 hx2 => h4 x (by omega) hx2⟩
      split <;> simp_all

/-! ### In the terms of Safety.lean -/

theorem State.memRead_ok_iff (s : State) (a n : Nat) (bytes : List Byte) :
    s.memRead a n = .ok bytes ↔ bytes.length = n ∧ s.Holds a bytes := Memory.readRange_ok_iff ..

theorem State.sourceBytes_ok_iff (s : State) (bytes : List Byte) :
    s.sourceBytes = .ok bytes ↔ s.Source bytes := Memory.readRange_ok_iff ..

theorem State.memRead_error_iff (s : State) (a n e : Nat) :
    s.memRead a n = .error e ↔ a ≤ e ∧ e < a + n ∧ Memory.read s.src e = none ∧
      ∀ x, a ≤ x → x < e → (Memory.read s.src x).isSome := Memory.readRange_error_iff ..

/-- A range all of whose cells are written reads as some bytes. -/
theorem State.memRead_of_written (s : State) (a n : Nat) (hw : s.Written a n) :
    ∃ bytes, s.memRead a n = .ok bytes ∧ bytes.length = n ∧ s.Holds a bytes := by
  cases hr : s.memRead a n with
  | ok bytes => exact ⟨bytes, rfl, (s.memRead_ok_iff a n bytes).mp hr⟩
  | error e =>
    obtain ⟨h1, h2, h3, -⟩ := (s.memRead_error_iff a n e).mp hr
    have := hw (e - a) (by omega)
    rw [show a + (e - a) = e by omega, h3] at this
    simp at this

/-- A part of what is held is held. -/
theorem State.Holds.take {s : State} {a : Nat} {bytes : List Byte} (h : s.Holds a bytes) (n : Nat) :
    s.Holds a (bytes.take n) := by
  intro k hk
  have hk' : k < bytes.length := by simp at hk; omega
  simpa using h k hk'

theorem State.Holds.drop {s : State} {a : Nat} {bytes : List Byte} (h : s.Holds a bytes) (n : Nat) :
    s.Holds (a + n) (bytes.drop n) := by
  intro k hk
  have hk' : n + k < bytes.length := by simp at hk; omega
  simpa [Nat.add_assoc] using h (n + k) hk'

/-- Two byte sequences of one length held at one place are equal. -/
theorem State.Holds.unique {s : State} {a : Nat} {b1 b2 : List Byte} (h1 : s.Holds a b1) (h2 : s.Holds a b2)
    (hl : b1.length = b2.length) : b1 = b2 := by
  refine List.ext_getElem hl fun k hk1 hk2 => ?_
  have := (h1 k hk1).symm.trans (h2 k hk2)
  simpa using this

end Sys2Proof.Machine
end

