-- ==== Sys2Proof/Laws/Crc.lean ====
section
/-! SUPPORT. Small lemmas of the CRC engine. -/

namespace Sys2Proof.Machine

@[simp] theorem crcTable_get (i : Fin 256) : crcTable.get i = crcEntry i.val := by
  unfold crcTable
  simp [Vector.get_eq_getElem]

@[simp] theorem checksum_nil (table : Vector Word 256) : checksum table [] = crcInit := rfl

theorem checksum_append_singleton (table : Vector Word 256) (bytes : List Byte) (b : Byte) :
    checksum table (bytes ++ [b]) = crcByte table (checksum table bytes) b := by
  simp [checksum, List.foldl_append]

theorem checksum_append (table : Vector Word 256) (m n : List Byte) :
    checksum table (m ++ n) = n.foldl (crcByte table) (checksum table m) := by
  simp [checksum, List.foldl_append]

/-- Under the table invariant, what the block sums after the lazy guard is `CRC` (40_crc.md R123). -/
theorem State.checksum_ensureTable (s : State) (h : s.TableOk) (bytes : List Byte) :
    checksum s.ensureTable.table bytes = crc bytes := by
  rw [s.ensureTable_table h, crc]

/-- The guard leaves nothing but the table and its flag changed. -/
theorem State.ensureTable_eq (s : State) (h : s.TableOk) :
    s.ensureTable = { s with table := crcTable, tv := true } := by
  unfold State.ensureTable
  split
  · rename_i htv
    have := h htv
    cases s; simp_all
  · rfl

end Sys2Proof.Machine
end

