-- ==== Sys2Proof/Laws/Commands.lean ====
section
/-! SUPPORT. What each meaning and each shared end of a command can answer, said once: later proofs cite these and
do not unfold the meanings. -/

namespace Sys2Proof.Machine

/-! ### The commands that cannot fail -/

theorem execCrcTbl_eq (s : State) :
    execCrcTbl s = .next { s with table := crcTable, tv := true, status := .success, seq := .idle } := rfl

theorem execCrcSum_eq (s : State) :
    execCrcSum s = match s.sourceBytes with
      | .error a => .fault (.unwrittenSource .crcSum a)
      | .ok bytes =>
        .next ((((s.begin .tbl).ensureTable.enter .crc).runCrc bytes).putCrcacc.complete) := by
  cases h : s.sourceBytes <;> simp [execCrcSum, h]

theorem execCrcSum_next_iff (s t : State) :
    execCrcSum s = .next t ↔ ∃ bytes, s.sourceBytes = .ok bytes ∧
      t = (((s.begin .tbl).ensureTable.enter .crc).runCrc bytes).putCrcacc.complete := by
  rw [execCrcSum_eq]
  cases s.sourceBytes <;> simp [eq_comm]

theorem execHdrEnc_eq (s : State) :
    execHdrEnc s = .next { s with dst := encodeHeader s.h, status := .success, seq := .idle } := rfl

/-! ### The adapter (41_codec_adapter.md R143, R145) -/

/-- What `compress` answers when it succeeds. -/
theorem compress_ok_iff (P : Params) (input out : List Byte) :
    compress P input = .ok out ↔
      P.bound input.length ≤ P.bufCap ∧ P.codec.deflate input (P.bound input.length) = (.ok, out) := by
  unfold compress
  split
  · simp; omega
  · rename_i h
    have h' : P.bound input.length ≤ P.bufCap := by omega
    rcases P.codec.deflate input (P.bound input.length) with ⟨st, o⟩
    cases st <;> simp [AdapterKind.ofStatus, h']

/-- What `decompress` answers when it succeeds. -/
theorem decompress_ok_iff (P : Params) (input out : List Byte) (expected : Word) :
    decompress P input expected = .ok out ↔
      expected.toNat ≤ P.bufCap ∧ P.codec.inflate input expected.toNat = (.ok, out) ∧
        out.length = expected.toNat := by
  unfold decompress
  split
  · simp; omega
  · rename_i h
    have h' : expected.toNat ≤ P.bufCap := by omega
    rcases P.codec.inflate input expected.toNat with ⟨st, o⟩
    cases st <;> simp [AdapterKind.ofStatus, h']
    split <;> simp <;> (intro h1; subst h1; assumption)

/-- The two ends of a decompressing command. -/
theorem State.finishDecompress_cases (s : State) (i : Instr) (r : Except AdapterKind (List Byte)) :
    (∃ k, r = .error k ∧ s.finishDecompress i r = s.raise i k.decompressErr) ∨
    (∃ out, r = .ok out ∧ s.finishDecompress i r = (s.putDst out).complete) := by
  cases r <;> simp [State.finishDecompress]

/-- The two ends of a compressing command. -/
theorem State.finishCompress_cases (s : State) (i : Instr) (r : Except AdapterKind (List Byte)) :
    (∃ k, r = .error k ∧ s.finishCompress i r = s.raise i k.compressErr) ∨
    (∃ out, r = .ok out ∧ s.finishCompress i r = (s.putDst out).complete) := by
  cases r <;> simp [State.finishCompress]

theorem dcaCompWith_next_iff (P : Params) (s t : State) :
    dcaCompWith P s = .next t ↔ ∃ input, s.sourceBytes = .ok input ∧
      t = (s.begin .comp).finishCompress .dcaComp (compress P input) := by
  unfold dcaCompWith
  simp only [State.begin_sourceBytes]
  cases s.sourceBytes <;> simp [eq_comm]

theorem dcaDecompWith_next_iff (P : Params) (s t : State) :
    dcaDecompWith P s = .next t ↔ ∃ input, s.sourceBytes = .ok input ∧
      t = (s.begin .decomp).finishDecompress .dcaDecomp (decompress P input s.exp) := by
  unfold dcaDecompWith
  simp only [State.begin_sourceBytes, State.begin_exp]
  cases s.sourceBytes <;> simp [eq_comm]

/-- How a compressing command ends, in the terms of Safety.lean; `s` is the state before the command, `q` what the
sequencer holds at the call of the core. -/
theorem State.finishCompress_ends (P : Params) (s : State) (q : Sequencer) (i : Instr)
    (hi : producesBytes i = true) (hp : q.phase = .comp) (input : List Byte) :
    CompEnds P input (s.failedEmpty .comp) s.produced
      (({ s with seq := q } : State).finishCompress i (compress P input)) := by
  refine ⟨fun h => ?_, fun h st out he => ?_⟩
  · simp [compress, h, State.finishCompress, AdapterKind.compressErr, State.raise, hi, State.failedEmpty,
      Status.failure, hp]
  · have h' : ¬ P.bufCap < P.bound input.length := by omega
    simp only [compress, h', if_false, he]
    cases st <;> simp [AdapterKind.ofStatus, State.finishCompress, AdapterKind.compressErr, State.raise, hi,
      State.failedEmpty, Status.failure, hp, State.produced, State.putDst, State.complete, Status.success]

/-- How a decompressing command ends, in the terms of Safety.lean; `s` is the state before the call of the core, `q`
what the sequencer holds at it. -/
theorem State.finishDecompress_ends (P : Params) (s : State) (q : Sequencer) (i : Instr)
    (hi : producesBytes i = true) (hp : q.phase = .decomp) (input : List Byte) (expected : Word) :
    DecompEnds P input expected (s.failedEmpty .decomp) s.produced
      (({ s with seq := q } : State).finishDecompress i (decompress P input expected)) := by
  refine ⟨fun h => ?_, fun h st out he => ?_⟩
  · simp [decompress, h, State.finishDecompress, AdapterKind.decompressErr, State.raise, hi, State.failedEmpty,
      Status.failure, hp]
  · have h' : ¬ P.bufCap < expected.toNat := by omega
    simp only [decompress, h', if_false, he]
    cases st <;> simp [AdapterKind.ofStatus, State.finishDecompress, AdapterKind.decompressErr, State.raise, hi,
      State.failedEmpty, Status.failure, hp, State.produced, State.putDst, State.complete, Status.success]
    constructor <;> (intro hl; simp [hl])

/-! ### The header codec -/

theorem execHdrDec_next_iff (s t : State) :
    execHdrDec s = .next t ↔
      (s.srclen.toNat < hdrSize ∧ t = (s.begin .hdec).raise .hdrDec .formatError) ∨
      (hdrSize ≤ s.srclen.toNat ∧ ∃ bytes, s.memRead 0 hdrSize = .ok bytes ∧
        t = ((s.begin .hdec).putHeader (decodeHeader bytes)).complete) := by
  unfold execHdrDec
  simp only [State.begin_srclen, State.begin_memRead]
  by_cases h : s.srclen.toNat < hdrSize
  · have h' : ¬ hdrSize ≤ s.srclen.toNat := by omega
    simp [h, h', eq_comm]
  · have h' : hdrSize ≤ s.srclen.toNat := by omega
    cases s.memRead 0 hdrSize <;> simp [h, h', eq_comm]

/-! ### The container sequencer -/

/-- From the compressed payload on, `PK.REPACK` either raises `OversizeError` or emits the container, exactly by
the length of the compressed payload (43_container.md R182). -/
theorem State.packCompressed_cases (s : State) (c : List Byte) (h : s.TableOk) :
    (payloadMax < c.length ∧
      s.packCompressed c =
        { s with table := crcTable, tv := true, dst := [], seq := .idle
                 status := .failure .oversize .size }) ∨
    (c.length ≤ payloadMax ∧
      s.packCompressed c =
        { s with
          table := crcTable, tv := true, seq := .idle, status := .success
          dst := encodeHeader (packHeader s.srclen c.length (crc c)) ++ c ++ zeros (payloadMax - c.length) }) := by
  by_cases hc : payloadMax < c.length
  · refine .inl ⟨hc, ?_⟩
    have hp : paddingSize c.length < 0 := by
      simp only [paddingSize, fileSize, hdrSize, payloadMax] at *; omega
    simp only [State.packCompressed, State.stage_seq, hp, if_true]
    rw [State.ensureTable_eq ((s.stage c).enter .tbl) h]
    simp only [State.enter, State.stage, State.runCrc, State.latchHeader, State.raise, producesBytes, if_true]
  · refine .inr ⟨by omega, ?_⟩
    have hp : ¬ paddingSize c.length < 0 := by
      simp only [paddingSize, fileSize, hdrSize, payloadMax] at *; omega
    have hn : (paddingSize c.length).toNat = payloadMax - c.length := by
      simp only [paddingSize, fileSize, hdrSize, payloadMax] at *; omega
    simp only [State.packCompressed, State.stage_seq, hp, if_false, hn]
    rw [State.ensureTable_eq ((s.stage c).enter .tbl) h]
    simp only [State.enter, State.stage, State.runCrc, State.latchHeader, State.putDst, State.complete, crc]

theorem pkRepackWith_next_iff (P : Params) (s t : State) :
    pkRepackWith P s = .next t ↔ ∃ payload, s.sourceBytes = .ok payload ∧
      t = (s.begin .comp).finishRepack (compress P payload) := by
  unfold pkRepackWith
  simp only [State.begin_sourceBytes]
  cases s.sourceBytes <;> simp [eq_comm]

/-- What follows the range check with `CHK = 0`. -/
theorem State.unpackChecked_false (s : State) (P : Params) (c : List Byte) :
    s.unpackChecked P false c =
      ({ s with seq := { s.seq with phase := .decomp } } : State).finishDecompress (.pkUnpack false)
        (decompress P c s.seq.hl.realSize) := rfl

/-- What follows the range check with `CHK = 1`: the table is built, and the checksum decides
(43_container.md R188). -/
theorem State.unpackChecked_true (s : State) (P : Params) (c : List Byte) (h : s.TableOk) :
    s.unpackChecked P true c =
      if crc c ≠ s.seq.hl.checksum then s.withTable.failedEmpty .chk .formatError
      else
        ({ s.withTable with seq := { s.seq with phase := .decomp, acc := crc c } } : State).finishDecompress
          (.pkUnpack true) (decompress P c s.seq.hl.realSize) := by
  unfold State.unpackChecked
  have he := State.ensureTable_eq (s.enter .tbl) h
  simp only [if_true, he]
  rfl

/-- `PK.UNPACK`, phase by phase: the first failing one ends the command (43_container.md R185). -/
theorem pkUnpackWith_next_iff (P : Params) (chk : Bool) (s t : State) :
    pkUnpackWith P chk s = .next t ↔
      (s.srclen.toNat < hdrSize ∧ t = (s.begin .hdec).raise (.pkUnpack chk) .formatError) ∨
      (hdrSize ≤ s.srclen.toNat ∧ ∃ hb, s.memRead 0 hdrSize = .ok hb ∧
        ((headerField hb 0 ≠ versionTag ∧
            t = (((s.begin .hdec).latchHeader (decodeHeader hb)).enter .ver).raise (.pkUnpack chk) .formatError) ∨
         (headerField hb 0 = versionTag ∧ s.srclen.toNat < hdrSize + (headerField hb 2).toNat ∧
            t = (((s.begin .hdec).latchHeader (decodeHeader hb)).enter .bounds).raise (.pkUnpack chk) .formatError) ∨
         (headerField hb 0 = versionTag ∧ hdrSize + (headerField hb 2).toNat ≤ s.srclen.toNat ∧
            ∃ c, s.memRead hdrSize (headerField hb 2).toNat = .ok c ∧
              t = ({ s with seq := ⟨.bounds, decodeHeader hb, [], 0⟩ } : State).unpackChecked P chk c))) := by
  unfold pkUnpackWith
  simp only [State.begin_srclen, State.begin_memRead]
  by_cases h : s.srclen.toNat < hdrSize
  · have h' : ¬ hdrSize ≤ s.srclen.toNat := by omega
    simp [h, h', eq_comm]
  · have h' : hdrSize ≤ s.srclen.toNat := by omega
    cases hm : s.memRead 0 hdrSize with
    | error a => simp [h]
    | ok hb =>
      simp only [h, false_and, h', true_and, Except.ok.injEq, exists_eq_left', false_or, State.enter_seq,
        State.latchHeader_seq, State.enter_srclen, State.latchHeader_srclen, State.begin_srclen,
        State.enter_memRead, State.latchHeader_memRead, State.begin_memRead, decodeHeader]
      by_cases hv : headerField hb 0 = versionTag
      · by_cases hr : s.srclen.toNat < hdrSize + (headerField hb 2).toNat
        · have h2 : ¬ hdrSize + (headerField hb 2).toNat ≤ s.srclen.toNat := by omega
          simp only [hv, ne_eq, not_true, if_false, false_and, true_and, hr, h2, or_false, false_or, if_true,
            Host.Outcome.next.injEq]
          exact eq_comm
        · have h2 : hdrSize + (headerField hb 2).toNat ≤ s.srclen.toNat := by omega
          cases s.memRead hdrSize (headerField hb 2).toNat with
          | error a => simp [hv, hr]
          | ok c =>
            simp only [hv, ne_eq, not_true, if_false, false_and, true_and, hr, h2, false_or, Except.ok.injEq,
              exists_eq_left', Host.Outcome.next.injEq]
            exact eq_comm
      · simp only [hv, ne_eq, not_false_iff, if_true, if_false, true_and, false_and, or_false,
          Host.Outcome.next.injEq]
        exact eq_comm

theorem execPkValid_next_iff (s t : State) :
    execPkValid s = .next t ↔
      (s.srclen.toNat < hdrSize ∧ t = (s.begin .hdec).raise .pkValid .formatError) ∨
      (hdrSize ≤ s.srclen.toNat ∧ ∃ vb, s.memRead 0 4 = .ok vb ∧
        t = if unle32 vb ≠ versionTag then
              { s with status := .failure .formatError .ver, seq := .idle }
            else { s with status := .success, seq := .idle }) := by
  unfold execPkValid
  simp only [State.begin_srclen, State.begin_memRead]
  by_cases h : s.srclen.toNat < hdrSize
  · have h' : ¬ hdrSize ≤ s.srclen.toNat := by omega
    simp [h, h', eq_comm]
  · have h' : hdrSize ≤ s.srclen.toNat := by omega
    cases s.memRead 0 4 with
    | error a => simp [h]
    | ok vb =>
      simp only [h, false_and, h', true_and, Except.ok.injEq, exists_eq_left', false_or]
      by_cases hv : unle32 vb = versionTag
      · simp only [State.enter_seq, State.latchHeader_seq, hv, ne_eq, not_true, if_false, Host.Outcome.next.injEq]
        exact eq_comm
      · simp only [State.enter_seq, State.latchHeader_seq, hv, ne_eq, not_false_iff, if_true, if_false,
          Host.Outcome.next.injEq]
        exact eq_comm

end Sys2Proof.Machine
end

