-- ==== Sys2Proof/Laws/HostOps.lean ====
section
/-! SUPPORT. What the host's accesses answer when they are made one after another. -/

namespace Sys2Proof.Machine

variable (s : State)

theorem step_request (a : HostAccess) : step (s.request a) = access a s := rfl

@[simp] theorem hostMakes_nil : hostMakes [] s = .next s := rfl

theorem hostMakes_cons {a : HostAccess} {as : List HostAccess} {t : State} (h : access a s = .next t) :
    hostMakes (a :: as) s = hostMakes as t := by
  rw [hostMakes, step_request, h]

theorem hostMakes_append {as bs : List HostAccess} {s t : State} (h : hostMakes as s = .next t) :
    hostMakes (as ++ bs) s = hostMakes bs t := by
  induction as generalizing s with
  | nil => cases h; rfl
  | cons a as ih =>
    simp only [hostMakes, List.cons_append] at h ⊢
    split at h
    · exact ih h
    · cases h
    · cases h

/-- Bytes that fit are loaded: `WS a, bytes` (30_encoding.md R101; 20_memory.md R61). -/
theorem hostMakes_writeSrcBytes (bytes : List Byte) (s : State) (a : Nat) (h : a + bytes.length ≤ config.bufCap) :
    ∃ src, hostMakes (writeSrcBytes a bytes) s = .next { s with src := src } ∧
      ({ s with src := src } : State).Holds a bytes ∧
      ∀ j, j < a → Memory.read src j = Memory.read s.src j := by
  induction bytes generalizing s a with
  | nil => exact ⟨s.src, rfl, fun k hk => absurd hk (Nat.not_lt_zero k), fun _ _ => rfl⟩
  | cons b bs ih =>
    simp only [List.length_cons] at h
    have hw : access (.writeSrc a b) s = .next { s with src := Memory.write s.src a b } := by
      simp [access, State.hostWriteSrc, show a < config.bufCap by omega]
    obtain ⟨src, hs, hh, ho⟩ := ih { s with src := Memory.write s.src a b } (a + 1) (by omega)
    refine ⟨src, by rw [writeSrcBytes, hostMakes_cons s hw, hs], fun k hk => ?_, fun j hj => ?_⟩
    · cases k with
      | zero => simpa using ho a (by omega)
      | succ k => simpa [Nat.add_assoc, Nat.add_comm 1 k] using hh k (by simpa using hk)
    · rw [ho j (by omega)]
      exact Memory.read_write_other _ _ _ _ (by omega)

/-- A range within DST is read out in order: `RD a, n` (30_encoding.md R101; 20_memory.md R62). -/
theorem hostMakes_readDstBytes (n : Nat) (s : State) (a : Nat) (h : a + n ≤ s.dst.length) :
    hostMakes (readDstBytes a n) s =
      .next { s with reads := (((s.dst.drop a).take n).map HostRead.byte).reverse ++ s.reads } := by
  induction n generalizing s a with
  | zero => simp [readDstBytes]
  | succ n ih =>
    have hlt : a < s.dst.length := by omega
    have hr : access (.readDst a) s = .next (s.reply (.byte s.dst[a])) := by
      simp [access, State.hostReadDst, hlt]
    have hn := ih (s.reply (.byte s.dst[a])) (a + 1) (by simp only [State.reply]; omega)
    rw [readDstBytes, hostMakes_cons s hr, hn, List.drop_eq_getElem_cons hlt, List.take_succ_cons, List.map_cons,
      List.reverse_cons, List.append_assoc]
    rfl

/-- `W SRCLEN, v` with a value that fits (10_state.md R28). -/
theorem access_writeSrclen (v : Word) (h : v.toNat ≤ config.bufCap) :
    access (.writeReg 32 RegName.srclen.offset v) s = .next { s with srclen := v } := by
  simp [access, hostWriteReg, wholeWord, RegName.offset, regAt, State.writeReg, State.writeSrclen, h]

/-- `R STATUS` (10_state.md R26). -/
theorem access_readStatus :
    access (.readReg 32 RegName.status.offset) s = .next (s.reply (.word s.statusWord)) := by
  simp [access, State.hostReadReg, wholeWord, RegName.offset, regAt, State.regValue]

/-- `R DSTLEN` (10_state.md R29). -/
theorem access_readDstlen :
    access (.readReg 32 RegName.dstlen.offset) s = .next (s.reply (.word s.dstlen)) := by
  simp [access, State.hostReadReg, wholeWord, RegName.offset, regAt, State.regValue]

/-- A bare mnemonic runs its command (30_encoding.md R101). -/
theorem access_command (i : Instr) : access (commandAccess (encode i)) s = exec i s := by
  have hd : decode (encode i) = .ok i := by
    rcases i with _ | _ | _ | _ | _ | _ | _ | chk | _ <;> first | rfl | (cases chk <;> rfl)
  simp [access, commandAccess, hostWriteReg, wholeWord, regAt, issue, hd]

/-- The accesses of an operation's lines up to `R STATUS`. -/
theorem hostProgram_lines (op : HostOp) :
    hostProgram op.lines = writeSrcBytes 0 op.loads ++
      [.writeReg 32 RegName.srclen.offset (BitVec.ofNat 32 op.loads.length), commandAccess (encode op.command),
        .readReg 32 RegName.status.offset] := by
  cases op <;> rfl

theorem readBytes_map_byte (bytes : List Byte) : readBytes (bytes.map .byte) = bytes := by
  induction bytes with
  | nil => rfl
  | cons b bs ih => simp [readBytes]

/-- The `ERR` field of the `STATUS` word is the error's number (10_state.md R26). -/
theorem errField_statusWord : errField s.statusWord = s.status.err.code := by
  rw [State.statusWord_eq]
  obtain ⟨done, ill, phase, err⟩ := s.status
  cases s.tv <;> cases done <;> cases ill <;> cases phase <;> cases err <;> rfl

theorem ErrCode.code_eq_zero_iff (e : ErrCode) : e.code = 0 ↔ e = .none := by cases e <;> decide

end Sys2Proof.Machine
end

