-- ==== Sys2Proof/Laws/PerInstr.lean ====
section
/-! SUPPORT. The statements made per instruction: every command's word has well-formed fields
(30_encoding.md R90, R92). -/

namespace Sys2Proof.Laws.FieldsWellFormed

/-- The command's word has `RSV = 0`, an opcode of the map, and `CHK = 1` only where it may. -/
def Statement (i : Instr) : Prop := i.wf = true

theorem crcTbl : Statement .crcTbl := by unfold Statement; decide
theorem crcSum : Statement .crcSum := by unfold Statement; decide
theorem dcaComp : Statement .dcaComp := by unfold Statement; decide
theorem dcaDecomp : Statement .dcaDecomp := by unfold Statement; decide
theorem hdrEnc : Statement .hdrEnc := by unfold Statement; decide
theorem hdrDec : Statement .hdrDec := by unfold Statement; decide
theorem pkRepack : Statement .pkRepack := by unfold Statement; decide
theorem pkUnpack (chk : Bool) : Statement (.pkUnpack chk) := by unfold Statement; cases chk <;> decide
theorem pkValid : Statement .pkValid := by unfold Statement; decide

end Sys2Proof.Laws.FieldsWellFormed
end

