-- ==== Sys2Proof/Tests/Slice0.lean ====
section
/-! SUPPORT. The model's own tests. Expected values are the spec's (95_test_vectors.md; the row is named where a
table has rows) or written out by hand from the rule named. The witnesses at the end meet, for each statement of
Sys2Proof/Certificates/Slice0/Obligations.lean that has hypotheses, all of its hypotheses together. -/

namespace Sys2Proof.Tests

open Sys2Proof Sys2Proof.Machine

/-! ### Builders -/

/-- `bytes` as cells from index `a`. -/
def cells : Nat → List Byte → Memory
  | _, [] => []
  | a, b :: bs => (a, b) :: cells (a + 1) bs

/-- The reset state with `bytes` loaded at SRC index 0 and `SRCLEN` their number. -/
def loaded (bytes : List Byte) : State :=
  { State.reset with src := cells 0 bytes, srclen := BitVec.ofNat 32 bytes.length }

/-- One thing seen of the next state, if there is one. -/
def after {α : Type} (o : Outcome) (f : State → α) : Option α :=
  match o with
  | .next t => some (f t)
  | .fault _ => none
  | .refused _ => none

/-- Parameters whose core answers `r` to everything. -/
def answering (r : CoreStatus × List Byte) : Params :=
  { Params.identity with codec := { deflate := fun _ _ => r, inflate := fun _ _ => r } }

def hello : List Byte := [0x68, 0x65, 0x6C, 0x6C, 0x6F]
def digits : List Byte := [0x31, 0x32, 0x33, 0x34, 0x35, 0x36, 0x37, 0x38, 0x39]

/-- The 32 header bytes of row K1. -/
def k1Header : List Byte :=
  [0x15, 0, 0, 0, 0x05, 0, 0, 0, 0x05, 0, 0, 0, 0x4D, 0x23, 0x4D, 0x33] ++
  [0, 0, 0, 0, 0x44, 0x40, 0x4D, 0x33, 0x79, 0x59, 0xEF, 0xC9, 0x35, 0x52, 0x56, 0x40]

/-- Rows U2 and on: the file `F_ID` without its padding. -/
def fileId : List Byte := k1Header ++ hello

/-- The 16 compressed bytes of row K2. -/
def k2Compressed : List Byte :=
  [0x78, 0x01, 0x01, 0x05, 0x00, 0xFA, 0xFF, 0x68, 0x65, 0x6C, 0x6C, 0x6F, 0x06, 0x2C, 0x02, 0x15]

theorem read_cells_below (bytes : List Byte) (a x : Nat) (h : x < a) : Memory.read (cells a bytes) x = none := by
  induction bytes generalizing a with
  | nil => rfl
  | cons b bs ih =>
    rw [cells, Memory.read, if_neg (by omega)]
    exact ih (a + 1) (by omega)

theorem read_cells (bytes : List Byte) (a k : Nat) : Memory.read (cells a bytes) (a + k) = bytes[k]? := by
  induction bytes generalizing a k with
  | nil => rfl
  | cons b bs ih =>
    cases k with
    | zero => simp [cells, Memory.read]
    | succ k =>
      rw [cells, Memory.read, if_neg (by omega), show a + (k + 1) = (a + 1) + k by omega, ih]
      simp

theorem holds_cells (s : State) (bytes : List Byte) (h : s.src = cells 0 bytes) : s.Holds 0 bytes := by
  intro k hk
  rw [h, read_cells]
  exact List.getElem?_eq_getElem hk

theorem loaded_source (bytes : List Byte) (h : bytes.length < 2 ^ 32) : (loaded bytes).Source bytes :=
  ⟨by simp only [loaded, BitVec.toNat_ofNat, Nat.mod_eq_of_lt h], holds_cells _ bytes rfl⟩

/-! ### Well-formed command words (30_encoding.md R90 to R93) -/

theorem test_wf_accepts_pk_unpack_checked : (⟨0, 1, 0x31⟩ : Cmd32).wf = true := by decide
/-- R90: `RSV` must be 0. -/
theorem test_wf_refuses_reserved_bit : (⟨1, 0, 0x31⟩ : Cmd32).wf = false := by decide
/-- R92: 0x33 is not in the opcode map. -/
theorem test_wf_refuses_unknown_opcode : (⟨0, 0, 0x33⟩ : Cmd32).wf = false := by decide
/-- R90: `CHK` may be 1 only with `OPC = 0x31`. -/
theorem test_wf_refuses_chk_on_repack : (⟨0, 1, 0x30⟩ : Cmd32).wf = false := by decide

/-! ### Decoding, each word written out bit by bit: `RSV` (23 bits), `CHK` (1), `OPC` (8) (30_encoding.md R91, R92) -/

theorem test_decode_crc_tbl : decode 0b00000000000000000000000000000001#32 = .ok .crcTbl := by decide
theorem test_decode_crc_sum : decode 0b00000000000000000000000000000010#32 = .ok .crcSum := by decide
theorem test_decode_dca_comp : decode 0b00000000000000000000000000010000#32 = .ok .dcaComp := by decide
theorem test_decode_dca_decomp : decode 0b00000000000000000000000000010001#32 = .ok .dcaDecomp := by decide
theorem test_decode_hdr_enc : decode 0b00000000000000000000000000100000#32 = .ok .hdrEnc := by decide
theorem test_decode_hdr_dec : decode 0b00000000000000000000000000100001#32 = .ok .hdrDec := by decide
theorem test_decode_pk_repack : decode 0b00000000000000000000000000110000#32 = .ok .pkRepack := by decide
theorem test_decode_pk_unpack : decode 0b00000000000000000000000000110001#32 = .ok (.pkUnpack false) := by decide
theorem test_decode_pk_unpack_c : decode 0b00000000000000000000000100110001#32 = .ok (.pkUnpack true) := by decide
theorem test_decode_pk_valid : decode 0b00000000000000000000000000110010#32 = .ok .pkValid := by decide

/-- The undefined words of 95_test_vectors.md, section 4.5. -/
theorem test_decode_refuses_undefined_words :
    [0x00000000#32, 0x00000003#32, 0x00000033#32, 0x00000102#32, 0x00000130#32, 0x00000231#32, 0x80000031#32,
      0xFFFFFFFF#32].all (fun w => (decode w).toOption == none) = true := by decide

theorem test_decode_table_word : decodeTableWord 32 0x131 = some (.pkUnpack true) := by decide

/-- Every table word runs as the first command after reset: the step ends in a next state. -/
theorem test_first_step_runs :
    [0x001, 0x002, 0x010, 0x011, 0x020, 0x021, 0x030, 0x031, 0x131, 0x032].all
      (fun w => (after (step (State.reset.withFetchWord 32 w)) fun _ => ()) == some ()) = true := by decide

/-! ### CRC engine (95_test_vectors.md, section 4.1; 40_crc.md R122) -/

theorem test_table_first_row :
    (List.range 8).map crcEntry =
      [0x00000000#32, 0x77073096#32, 0xEE0E612C#32, 0x990951BA#32, 0x076DC419#32, 0x706AF48F#32, 0xE963A535#32,
        0x9E6495A3#32] := by decide +kernel
theorem test_table_last_entry : crcTable.get 255 = 0x2D02EF8D#32 := by decide +kernel
theorem test_crc_abc : crc [0x61, 0x62, 0x63] = 0xCADBBE3D#32 := by decide +kernel
theorem test_crc_hello : crc hello = 0xC9EF5979#32 := by decide +kernel

theorem test_crc_tbl :
    after (exec .crcTbl .reset) (fun t => (t.statusWord, t.table.get 1)) = some (0x000000F5#32, 0x77073096#32) := by
  decide +kernel
/-- Program P1. -/
theorem test_crc_sum :
    after (exec .crcSum (loaded digits)) (fun t => (t.statusWord, t.crcacc, t.tv, t.dst)) =
      some (0x000000F5#32, 0x340BC6D9#32, true, []) := by decide +kernel
theorem test_crc_sum_of_nothing :
    after (exec .crcSum .reset) (fun t => t.crcacc) = some 0xFFFFFFFF#32 := by decide +kernel

/-! ### Codec adapter, on the fixture core K_ID (95_test_vectors.md, sections 2 and 4.2) -/

theorem test_dca_comp :
    after (dcaCompWith Params.identity (loaded hello)) (fun t => (t.statusWord, t.dst)) =
      some (0x000000F1#32, hello) := by decide +kernel
/-- A core that reports `STREAM_ERROR`: `CompressStream` is 9, `P_COMP` is 3 (41_codec_adapter.md R142). -/
theorem test_dca_comp_stream_error :
    after (dcaCompWith (answering (.streamError, hello)) { loaded hello with dst := hello })
      (fun t => (t.statusWord, t.dst)) = some (0x00000931#32, []) := by decide +kernel
/-- A core that reports `OK` with fewer bytes than `EXP`: `DecompressData` is 5, `P_DECOMP` is 11 (R149). -/
theorem test_dca_decomp_short :
    after (dcaDecompWith Params.identity { loaded hello with exp := 6 }) (fun t => (t.statusWord, t.dst)) =
      some (0x000005B1#32, []) := by decide +kernel
/-- `EXP > BUF_CAP`: `DecompressMemory` is 6 (R148). -/
theorem test_dca_decomp_capacity :
    after (dcaDecompWith Params.identity { loaded hello with exp := 524289 }) (fun t => (t.statusWord, t.dst)) =
      some (0x000006B1#32, []) := by decide +kernel

/-! ### Header codec (95_test_vectors.md, sections 4.3 and 4.6) -/

/-- Row X3: after `W H[3], 0x334D234D`, `HDR.ENC` puts `4D 23 4D 33` at `DST[12..16)`. -/
theorem test_hdr_enc :
    after (exec .hdrEnc { State.reset with h := Header.zero.set 3 0x334D234D#32 })
      (fun t => (t.statusWord, t.dst.length, t.dst.drop 12)) =
      some (0x000000F1#32, 32, [0x4D, 0x23, 0x4D, 0x33] ++ zeros 16) := by decide +kernel
theorem test_hdr_dec :
    after (exec .hdrDec (loaded (k1Header ++ [0xFF]))) (fun t => (t.statusWord, t.h)) =
      some (0x000000F1#32, ⟨21, 5, 5, 860693325, 0, 860700740, 0xC9EF5979, 1079398965⟩) := by decide +kernel
/-- Program P4: 31 bytes are too few. -/
theorem test_hdr_dec_short :
    after (exec .hdrDec (loaded (k1Header.take 31))) (fun t => (t.statusWord, t.h)) =
      some (0x00000371#32, .zero) := by decide +kernel

/-! ### Container sequencer (95_test_vectors.md, section 4.4) -/

/-- Row K1. -/
theorem test_pk_repack :
    after (pkRepackWith Params.identity (loaded hello)) (fun t => (t.statusWord, t.dst.take 40, t.h, t.crcacc)) =
      some (0x000000F5#32, fileId ++ [0, 0, 0], .zero, 0) := by decide +kernel
/-- Row K2: the checksum is over the compressed bytes. -/
theorem test_pk_repack_checksum_is_over_the_compressed_bytes :
    after (pkRepackWith (answering (.ok, k2Compressed)) (loaded hello)) (fun t => (t.dst.take 49).drop 4) =
      some ([0x05, 0, 0, 0, 0x10, 0, 0, 0, 0x4D, 0x23, 0x4D, 0x33, 0, 0, 0, 0, 0x44, 0x40, 0x4D, 0x33] ++
        [0xF3, 0x1B, 0xE4, 0x10, 0x35, 0x52, 0x56, 0x40] ++ k2Compressed ++ [0]) := by decide +kernel
/-- Rows U2 and U12. -/
theorem test_pk_unpack :
    after (pkUnpackWith Params.identity false (loaded fileId)) (fun t => (t.statusWord, t.dst)) =
        some (0x000000F1#32, hello) ∧
      after (pkUnpackWith Params.identity true (loaded fileId)) (fun t => (t.statusWord, t.dst)) =
        some (0x000000F5#32, hello) := by decide +kernel
/-- Rows U5, U10, and U16: the first failing phase decides. -/
theorem test_pk_unpack_first_failing_phase :
    after (pkUnpackWith Params.identity false (loaded (fileId.take 36))) (fun t => t.statusWord) =
        some 0x00000391#32 ∧
      after (pkUnpackWith Params.identity true (loaded (fileId.set 36 0x70))) (fun t => t.statusWord) =
        some 0x000003A5#32 ∧
      after (pkUnpackWith Params.identity true (loaded ((fileId.take 36).set 0 0x14))) (fun t => t.statusWord) =
        some 0x00000381#32 := by decide +kernel
/-- Row V1: cells 4 and up are unwritten. -/
theorem test_pk_valid :
    after (exec .pkValid { loaded [0x15, 0, 0, 0] with srclen := 64 }) (fun t => t.statusWord) =
      some 0x000000F1#32 := by decide +kernel
/-- Row V4: the compare is on all 32 bits. -/
theorem test_pk_valid_full_compare :
    after (exec .pkValid { loaded [0x15, 0, 0, 0x01] with srclen := 64 }) (fun t => t.statusWord) =
      some 0x00000381#32 := by decide +kernel

/-! ### Faults, refusals and host accesses -/

/-- 70_reset_and_hazards.md R252. -/
theorem test_unwritten_source :
    exec .crcSum { loaded hello with srclen := 6 } = .fault (.unwrittenSource .crcSum 5) := by rfl
/-- Program P4: 0x33 is refused. -/
theorem test_refused_word :
    after (issue 0x00000033#32 { State.reset with dst := hello }) (fun t => (t.statusWord, t.dst)) =
      some (0x000000E3#32, hello) := by decide +kernel
/-- Row X2: a write of `STATUS` is ignored. -/
theorem test_status_is_read_only :
    access (.writeReg 32 0x004#12 0xFFFFFFFF#32) State.reset = .next State.reset := by rfl
/-- 10_state.md R39: `T[255]` is at 0x7FC, `H[7]` at 0x03C, and 0x040 is reserved. -/
theorem test_register_map :
    regAt 0x7FC#12 = .t 255 ∧ regAt 0x03C#12 = .h 7 ∧ regAt 0x040#12 = .reserved := by decide
/-- The host-action lines of 30_encoding.md R101. -/
theorem test_host_lines :
    hostProgram [.writeSrc 0 [0x15, 0x00], .command .pkValid, .readReg .status, .readDst 3 2] =
      [.writeSrc 0 0x15, .writeSrc 1 0x00, .writeReg 32 0x000#12 0x00000032#32, .readReg 32 0x004#12, .readDst 3,
        .readDst 4] := by decide
/-- 30_encoding.md R102, on the `STATUS` words of programs P2 and P5: on `ERR = 0` the whole file is read. -/
theorem test_repack_goes_on_only_without_an_error :
    (HostOp.repack hello).linesAfter [.word 0x000000F5#32] = [.readDst 0 524288] ∧
    (HostOp.repack hello).linesAfter [.word 0x00000855#32] = [] := by decide
/-- 30_encoding.md R102, on the words of program P3: `R DSTLEN`, then that many bytes, then nothing. -/
theorem test_unpack_goes_on_only_without_an_error :
    (HostOp.unpack fileId).linesAfter [.word 0x000000F5#32] = [.readReg .dstlen] ∧
    (HostOp.unpack fileId).linesAfter [.word 0x000000F5#32, .word 0x00000005#32] = [.readDst 0 5] ∧
    (HostOp.unpack fileId).linesAfter [.word 0x000003A5#32] = [] ∧
    hostResult ([.word 0x000000F5#32, .word 0x00000005#32] ++ hello.map .byte) = some (.ok hello) ∧
    hostResult [.word 0x000003A5#32] = some (.err 3) := by decide
/-- A cell written twice is listed once (20_memory.md R61). -/
theorem test_memory_is_canonical :
    Memory.write (Memory.write (Memory.write [] 7 0xAA) 3 0xBB) 7 0xCC = [(3, 0xBB), (7, 0xCC)] := by decide

/-! ### Witnesses: for each statement with hypotheses, states and operands that meet them together -/

/-- Parameters whose bound is beyond `BUF_CAP`. -/
def boundless : Params := { Params.identity with bound := fun n => n + 524289 }

/-- The reset state with one access pending. -/
def pending (a : HostAccess) : State := { State.reset with host := [a] }

/-- The reset state with the table built. -/
def tableBuilt : State := State.reset.withTable

theorem reset_tableOk : State.reset.TableOk := fun h => by simp [State.reset] at h
theorem loaded_tableOk (bytes : List Byte) : (loaded bytes).TableOk := fun h => by simp [loaded, State.reset] at h

theorem witness_decode_inverts_encode :
    (Instr.pkUnpack true).wf = true ∧ decode 0x00000131#32 = .ok (.pkUnpack true) := by decide

/-- One word for each clause of `DecodingFollowsTheOpcodeMap`. -/
theorem witness_decoding_follows_the_opcode_map :
    (0x00000200#32).extractLsb' 9 23 ≠ 0#23 ∧ (0x80000000#32).extractLsb' 9 23 ≠ 0#23 ∧
    [0x00000031#32, 0x00000131#32].all (fun w => w.extractLsb' 9 23 == 0 && w.extractLsb' 0 8 == 0x31) = true ∧
    ([0x01, 0x02, 0x10, 0x11, 0x20, 0x21, 0x30, 0x32] : List Word).all
      (fun w => w.extractLsb' 9 23 == 0 && !w.getLsbD 8 && w.extractLsb' 0 8 == w.setWidth 8) = true ∧
    [0x00000000#32, 0x00000003#32, 0x00000033#32, 0x000000FF#32].all
      (fun w => not ([0x01#8, 0x02#8, 0x10#8, 0x11#8, 0x20#8, 0x21#8, 0x30#8, 0x31#8, 0x32#8].contains
        (w.extractLsb' 0 8))) = true ∧
    [0x00000130#32, 0x00000132#32].all (fun w => w.getLsbD 8 && w.extractLsb' 0 8 != 0x31) = true := by decide

theorem witness_step_runs_the_decoded_command :
    State.reset.host = [] ∧ (pending (commandAccess 0x00000020#32)).host = commandAccess 0x00000020#32 :: [] ∧
    decode 0x00000020#32 = .ok .hdrEnc ∧ Instr.hdrEnc.wf = true := by decide

theorem witness_refused_word :
    (pending (commandAccess 0x00000033#32)).host = commandAccess 0x00000033#32 :: [] ∧
    decode 0x00000033#32 = .error (.unknownOpcode 0x33#8) := by decide

theorem witness_reset_access : (pending .reset).host = .reset :: [] := by rfl

theorem witness_step_keeps_the_invariant : State.reset.Inv ∧ step State.reset = .next State.reset :=
  ⟨⟨List.Pairwise.nil, by simp [State.reset], by simp [State.reset], by simp [State.reset], reset_tableOk, rfl,
    by decide⟩, rfl⟩

/-- Both ends of every range of the register map. -/
theorem witness_register_map :
    [0x000#12, 0x004#12, 0x014#12, 0x020#12, 0x03C#12, 0x400#12, 0x7FC#12].all
      (fun off => off.toNat % 4 == 0 && regAt off != .reserved) = true ∧
    [0x018#12, 0x01C#12, 0x040#12, 0x3FC#12, 0x800#12, 0xFFC#12].all
      (fun off => off.toNat % 4 == 0 && regAt off == .reserved) = true := by decide

/-- An aligned offset for each clause; `T[i]` is read both with and without a table. -/
theorem witness_register_reads :
    regAt 0x000#12 = .cmd ∧ regAt 0x018#12 = .reserved ∧ regAt 0x004#12 = .status ∧ regAt 0x008#12 = .srclen ∧
    regAt 0x00C#12 = .dstlen ∧ regAt 0x010#12 = .exp ∧ regAt 0x014#12 = .crcacc ∧ regAt 0x020#12 = .h 0 ∧
    regAt 0x03C#12 = .h 7 ∧ regAt 0x400#12 = .t 0 ∧ regAt 0x7FC#12 = .t 255 ∧ tableBuilt.tv = true ∧
    State.reset.tv = false ∧
    (pending (.readReg 32 0x7FC#12)).host = .readReg 32 0x7FC#12 :: [] ∧ (0x7FC#12).toNat % 4 = 0 := by decide

/-- Offsets of stored, read-only and reserved registers, all aligned and none of them `CMD`. -/
theorem witness_register_writes :
    (pending (.writeReg 32 0x008#12 5)).host = .writeReg 32 0x008#12 5 :: [] ∧
    [0x004#12, 0x008#12, 0x010#12, 0x018#12, 0x03C#12, 0x400#12].all
      (fun off => off.toNat % 4 == 0 && regAt off != .cmd) = true := by decide

/-- `SRCLEN` takes the capacity itself and keeps its own one above it (10_state.md R28), at the smallest capacity. -/
theorem witness_srclen_at_the_capacity :
    ((State.reset.writeSrclen 524288 524288#32).srclen, (State.reset.writeSrclen 524288 524289#32).srclen) =
      (524288#32, 0#32) := by decide

theorem witness_other_widths :
    ((16 : Nat) ≠ 32 ∨ (0x000#12).toNat % 4 ≠ 0) ∧ ((32 : Nat) ≠ 32 ∨ (0x006#12).toNat % 4 ≠ 0) ∧
    (pending (.writeReg 16 0x000#12 1)).host = .writeReg 16 0x000#12 1 :: [] ∧
    (pending (.readReg 32 0x006#12)).host = .readReg 32 0x006#12 :: [] := by decide

/-- A written cell, an unwritten cell, the last index every capacity has, and the first index beyond the capacity. -/
theorem witness_source_cells :
    (pending (.writeSrc 524287 1)).host = .writeSrc 524287 1 :: [] ∧ 524287 < config.bufCap ∧
    ({ loaded hello with host := [.readSrc 4] } : State).host = .readSrc 4 :: [] ∧ 4 < config.bufCap ∧
    Memory.read (loaded hello).src 4 = some 0x6F#8 ∧ Memory.read (loaded hello).src 5 = none ∧
    config.bufCap ≤ config.bufCap := by
  have h := config_lawful.bufCap_ge
  rw [fileSize] at h
  exact ⟨rfl, by omega, rfl, by omega, rfl, rfl, Nat.le_refl _⟩

theorem witness_destination_cells :
    (pending (.writeDst 0 1)).host = .writeDst 0 1 :: [] ∧
    ({ State.reset with dst := hello, host := [.readDst 4] } : State).host = .readDst 4 :: [] ∧ 4 < hello.length ∧
    hello.length ≤ 5 := by decide

/-- The bytes end at the smallest legal `BUF_CAP`. -/
theorem witness_loaded_source :
    524286 + [0xAA#8, 0xBB#8].length ≤ config.bufCap ∧
    ({ State.reset with host := (HostLine.writeSrc 524286 [0xAA, 0xBB]).accesses } : State).host =
      (HostLine.writeSrc 524286 [0xAA, 0xBB]).accesses ++ [] := by
  have h := config_lawful.bufCap_ge
  rw [fileSize] at h
  exact ⟨h, rfl⟩

theorem witness_result_read_out :
    1 + 4 ≤ hello.length ∧
    ({ State.reset with dst := hello, host := (HostLine.readDst 1 4).accesses } : State).host =
      (HostLine.readDst 1 4).accesses ++ [] := by decide

theorem witness_checksum_folds :
    (⟨0xFE, by decide⟩ : Fin 256).val = ((crc [] ^^^ (0x01#8).setWidth 32) &&& 0xFF#32).toNat := by decide

theorem witness_crc_tbl : tableBuilt.TableOk ∧ tableBuilt.tv = true := ⟨fun _ => rfl, rfl⟩

theorem witness_crc_sum :
    (loaded digits).TableOk ∧ (loaded digits).Source digits ∧
    State.reset.TableOk ∧ State.reset.Source [] ∧ State.reset.srclen = 0#32 :=
  ⟨loaded_tableOk _, loaded_source digits (by decide), reset_tableOk, loaded_source [] (by decide), rfl⟩

theorem witness_eager_table :
    State.reset.TableOk ∧ exec .crcTbl State.reset = .next
      { State.reset with table := crcTable, tv := true, status := .success } := ⟨reset_tableOk, rfl⟩

theorem witness_one_changed_byte : (0x63#8 : Byte) ≠ 0x64#8 := by decide

/-- A written source, and for each way a compression ends a core that ends it so. -/
theorem witness_dca_comp :
    (loaded hello).Source hello ∧ boundless.bufCap < boundless.bound hello.length ∧
    Params.identity.bound 524288 ≤ Params.identity.bufCap ∧
    [CoreStatus.ok, .streamError, .dataError, .memError, .bufError].all
      (fun st => (answering (st, hello)).codec.deflate hello 5 == (st, hello)) = true :=
  ⟨loaded_source hello (by decide), by decide, by decide, by decide⟩

/-- A written source with `EXP` at the capacity and one above it, an exact, a short and a failing core. -/
theorem witness_dca_decomp :
    ({ loaded hello with exp := 5 } : State).Source hello ∧ Params.identity.bufCap < (524289#32).toNat ∧
    (524288#32).toNat ≤ Params.identity.bufCap ∧ hello.length = (5#32).toNat ∧ hello.length ≠ (6#32).toNat ∧
    [CoreStatus.ok, .streamError, .dataError, .memError, .bufError].all
      (fun st => (answering (st, hello)).codec.inflate hello 6 == (st, hello)) = true :=
  ⟨loaded_source hello (by decide), by decide, by decide, by decide, by decide, by decide⟩

theorem loaded_headerBytes (hb rest : List Byte) (h : hb.length = 32) (hr : rest.length < 2 ^ 31) :
    (loaded (hb ++ rest)).HeaderBytes hb := by
  have hs := loaded_source (hb ++ rest) (by simp; omega)
  refine ⟨?_, h, ?_⟩
  · rw [← hs.1]; simp [hdrSize, h]
  · simpa using hs.2.take hb.length

theorem witness_decompressed_size :
    after (dcaDecompWith Params.identity { loaded hello with exp := 5 }) (fun t => t.status.err) = some .none ∧
    (loaded fileId).HeaderBytes k1Header ∧
    after (pkUnpackWith Params.identity true (loaded fileId)) (fun t => t.status.err) = some .none :=
  ⟨by decide +kernel, loaded_headerBytes k1Header hello (by decide) (by decide), by decide +kernel⟩

theorem witness_compress_then_decompress :
    Params.identity.Lawful ∧ (loaded hello).Source hello ∧
    dcaCompWith Params.identity (loaded hello) = .next ((loaded hello).produced hello) ∧
    ((loaded hello).produced hello).status.err = .none ∧
    ({ loaded hello with exp := 5 } : State).Source hello ∧ (5#32) = (loaded hello).srclen :=
  ⟨Params.identity_lawful, loaded_source hello (by decide), rfl, rfl, loaded_source hello (by decide), rfl⟩

theorem witness_little_endian : [0x4D#8, 0x23, 0x4D, 0x33].length = 4 := by decide
theorem witness_header_codec : 32 ≤ fileId.length ∧ k1Header.length = 32 := by decide
theorem witness_hdr_enc :
    ({ State.reset with h := ⟨21, 5, 5, 860693325, 0, 860700740, 0xC9EF5979, 1079398965⟩ } : State).h =
      ⟨21, 5, 5, 860693325, 0, 860700740, 0xC9EF5979, 1079398965⟩ := by rfl

/-- `SRCLEN` at 31 and at 32. -/
theorem witness_hdr_dec :
    (loaded (k1Header.take 31)).srclen.toNat = 31 ∧ (loaded (k1Header.take 31)).tv = false ∧
    (loaded k1Header).srclen.toNat = 32 ∧ (loaded k1Header).HeaderBytes k1Header :=
  ⟨by decide, by decide, by decide, by simpa using loaded_headerBytes k1Header [] (by decide) (by decide)⟩

theorem repack_identity (p : List Byte) (h : p.length ≤ 524256) :
    ∃ t, pkRepackWith Params.identity (loaded p) = .next t ∧ t.status.err = .none ∧ t.dst.length = 524288 := by
  have hs := (State.sourceBytes_ok_iff (loaded p) p).mpr (loaded_source p (by omega))
  have hc : compress Params.identity p = .ok p := by
    refine (compress_ok_iff Params.identity p p).mpr ⟨?_, ?_⟩
    · show p.length ≤ 524288
      omega
    · simp [Params.identity]
  refine ⟨_, (pkRepackWith_next_iff Params.identity (loaded p) _).mpr ⟨p, hs, rfl⟩, ?_⟩
  rw [hc]
  rcases State.packCompressed_cases ((loaded p).begin .comp) p (loaded_tableOk p) with ⟨h1, _⟩ | ⟨h1, h2⟩
  · simp only [payloadMax] at h1; omega
  · rw [State.finishRepack, h2]
    simp only [payloadMax] at h1
    refine ⟨rfl, ?_⟩
    simp [encodeHeader, le32, zeros, payloadMax]
    omega

/-- A written payload; compressed lengths at 524256 and 524257 bytes; the cores of `witness_dca_comp`. -/
theorem witness_pk_repack :
    (loaded hello).TableOk ∧ (loaded hello).Source hello ∧ boundless.bufCap < boundless.bound hello.length ∧
    (answering (.ok, zeros 524256)).codec.deflate hello 5 = (.ok, zeros 524256) ∧ ¬ 524256 < (zeros 524256).length ∧
    524256 < (zeros 524257).length :=
  ⟨loaded_tableOk _, loaded_source hello (by decide), by decide, rfl, by rw [zeros, List.length_replicate]; omega,
    by rw [zeros, List.length_replicate]; omega⟩

/-- A payload of the largest size that fits, and one that compresses to one byte too many. -/
theorem witness_repack_is_fixed_size :
    (∃ t, pkRepackWith Params.identity (loaded (zeros 524256)) = .next t ∧ t.status.err = .none) ∧
    ∃ t, pkRepackWith (answering (.ok, zeros 524257)) (loaded hello) = .next t ∧ t.status.err = .oversize := by
  refine ⟨?_, ?_⟩
  · obtain ⟨t, h1, h2, _⟩ := repack_identity (zeros 524256) (by rw [zeros, List.length_replicate])
    exact ⟨t, h1, h2⟩
  · have hs := (State.sourceBytes_ok_iff (loaded hello) hello).mpr (loaded_source hello (by decide))
    have hc : compress (answering (.ok, zeros 524257)) hello = .ok (zeros 524257) :=
      (compress_ok_iff _ _ _).mpr ⟨by decide, rfl⟩
    refine ⟨_, (pkRepackWith_next_iff _ _ _).mpr ⟨hello, hs, rfl⟩, ?_⟩
    rw [hc]
    rcases State.packCompressed_cases ((loaded hello).begin .comp) (zeros 524257) (loaded_tableOk hello) with
      ⟨_, h2⟩ | ⟨h1, _⟩
    · rw [State.finishRepack, h2]; rfl
    · rw [zeros, List.length_replicate, payloadMax] at h1; omega

theorem witness_container_layout :
    Params.identity.Lawful ∧ (loaded hello).TableOk ∧ (loaded hello).Source hello ∧
    ∃ t, pkRepackWith Params.identity (loaded hello) = .next t ∧ t.status.err = .none := by
  obtain ⟨t, h1, h2, _⟩ := repack_identity hello (by decide)
  exact ⟨Params.identity_lawful, loaded_tableOk _, loaded_source hello (by decide), t, h1, h2⟩

theorem fileId_headerBytes : (loaded fileId).HeaderBytes k1Header :=
  loaded_headerBytes k1Header hello (by decide) (by decide)

theorem fileId_holds : (loaded fileId).Holds 32 hello := by
  have h := (loaded_source fileId (by decide)).2.drop 32
  exact h

/-- `SRCLEN` 31; a wrong version; a source one byte short of the compressed range and one that just covers it; a
matching checksum and one that does not match. -/
theorem witness_pk_unpack :
    (loaded (fileId.take 31)).srclen.toNat < 32 ∧
    ((loaded (fileId.set 0 0x14)).HeaderBytes (k1Header.set 0 0x14) ∧ headerField (k1Header.set 0 0x14) 0 ≠ 21#32) ∧
    ((loaded (fileId.take 36)).HeaderBytes k1Header ∧ headerField k1Header 0 = 21#32 ∧
      (loaded (fileId.take 36)).srclen.toNat < 32 + (headerField k1Header 2).toNat) ∧
    ((loaded fileId).HeaderBytes k1Header ∧ hello.length = (headerField k1Header 2).toNat ∧
      32 + hello.length = (loaded fileId).srclen.toNat ∧ (loaded fileId).Holds 32 hello ∧ (loaded fileId).TableOk ∧
      crc hello = headerField k1Header 6) ∧
    crc [0x68, 0x65, 0x6C, 0x6C, 0x70] ≠ headerField k1Header 6 :=
  ⟨by decide,
    ⟨loaded_headerBytes (k1Header.set 0 0x14) hello (by decide) (by decide), by decide⟩,
    ⟨loaded_headerBytes k1Header (hello.take 4) (by decide) (by decide), by decide, by decide⟩,
    ⟨fileId_headerBytes, by decide, by decide, fileId_holds, loaded_tableOk _, by decide +kernel⟩,
    by decide +kernel⟩

theorem witness_version_gate :
    (loaded (fileId.take 31)).srclen.toNat < 32 ∧ 32 ≤ (loaded (k1Header.set 0 0x14)).srclen.toNat ∧
    (loaded (k1Header.set 0 0x14)).Holds 0 ([0x14, 0, 0, 0] ++ k1Header.drop 4) ∧ (k1Header.drop 4).length = 28 ∧
    unle32 [0x14, 0, 0, 0] ≠ 21#32 :=
  ⟨by decide, by decide, holds_cells _ _ rfl, by decide, by decide⟩

/-- Rows U2 and U7: the same compressed bytes under another magic word. -/
theorem witness_unchecked_bytes :
    (loaded fileId).HeaderBytes k1Header ∧
    (loaded (fileId.set 12 0)).HeaderBytes (k1Header.set 12 0) ∧
    (∀ k, k ∈ [0, 1, 2] → headerField (k1Header.set 12 0) k = headerField k1Header k) ∧
    hello.length = (headerField k1Header 2).toNat ∧ 32 + hello.length ≤ (loaded fileId).srclen.toNat ∧
    32 + hello.length ≤ (loaded (fileId.set 12 0)).srclen.toNat ∧ (loaded fileId).Holds 32 hello ∧
    (loaded (fileId.set 12 0)).Holds 32 hello ∧ ∃ t, exec (.pkUnpack false) (loaded fileId) = .next t := by
  refine ⟨fileId_headerBytes, loaded_headerBytes (k1Header.set 12 0) hello (by decide) (by decide), by decide,
    by decide, by decide, by decide, fileId_holds, ?_, ?_⟩
  · exact (loaded_source (fileId.set 12 0) (by decide)).2.drop 32
  · refine ⟨_, (pkUnpackWith_next_iff config false (loaded fileId) _).mpr (.inr ⟨by decide, k1Header, ?_, .inr (.inr ⟨by decide,
      by decide, hello, ?_, rfl⟩)⟩)⟩
    · exact (State.memRead_ok_iff _ _ _ _).mpr fileId_headerBytes.2
    · exact (State.memRead_ok_iff _ _ _ _).mpr ⟨by decide, fileId_holds⟩

theorem witness_repack_then_unpack :
    ∃ t s2 : State, Params.identity.Lawful ∧ (loaded hello).TableOk ∧ s2.TableOk ∧ (loaded hello).Source hello ∧
      pkRepackWith Params.identity (loaded hello) = .next t ∧ t.status.err = .none ∧ s2.srclen = 524288#32 ∧
      s2.Source t.dst := by
  obtain ⟨t, h1, h2, h3⟩ := repack_identity hello (by decide)
  exact ⟨t, loaded t.dst, Params.identity_lawful, loaded_tableOk _, loaded_tableOk _,
    loaded_source hello (by decide), h1, h2, by rw [loaded, h3], loaded_source t.dst (by omega)⟩

/-- Row U10: the last compressed byte 6F became 70. -/
theorem witness_chk_catches :
    (loaded (fileId.set 36 0x70)).TableOk ∧ (loaded (fileId.set 36 0x70)).HeaderBytes k1Header ∧
    headerField k1Header 0 = 21#32 ∧ (headerField k1Header 2).toNat = (hello.take 4 ++ [0x70]).length ∧
    32 + (hello.take 4 ++ [0x70]).length ≤ (loaded (fileId.set 36 0x70)).srclen.toNat ∧
    headerField k1Header 6 = crc (hello.take 4 ++ [0x6F]) ∧
    (loaded (fileId.set 36 0x70)).Holds 32 (hello.take 4 ++ [0x70]) ∧ (0x6F#8 : Byte) ≠ 0x70#8 :=
  ⟨loaded_tableOk _, loaded_headerBytes k1Header [0x68, 0x65, 0x6C, 0x6C, 0x70] (by decide) (by decide), by decide,
    by decide, by decide, by decide +kernel, (loaded_source (fileId.set 36 0x70) (by decide)).2.drop 32, by decide⟩

theorem witness_format_errors :
    after (pkUnpackWith Params.identity false (loaded (fileId.take 36))) (fun t => t.status.err) =
      some .formatError := by decide +kernel

/-- `SRCLEN` 31 and 32, version 21 and version 20. -/
theorem witness_pk_valid :
    (loaded (k1Header.take 31)).srclen.toNat < 32 ∧ (loaded (k1Header.take 31)).tv = false ∧
    32 ≤ (loaded k1Header).srclen.toNat ∧ (loaded k1Header).Holds 0 [0x15, 0, 0, 0] ∧
    unle32 [0x15, 0, 0, 0] = 21#32 ∧ (loaded (k1Header.set 0 0x14)).Holds 0 [0x14, 0, 0, 0] ∧
    unle32 [0x14, 0, 0, 0] ≠ 21#32 :=
  ⟨by decide, by decide, by decide, (holds_cells (loaded k1Header) _ rfl).take 4, by decide,
    (holds_cells (loaded (k1Header.set 0 0x14)) _ rfl).take 4, by decide⟩

/-- Prefixes of the shortest length, of the validator's window, and of the whole file. -/
theorem witness_packed_prefix :
    ∀ n, n ∈ [32, 64, 524288] →
      ∃ t s2 : State, Params.identity.Lawful ∧ (loaded hello).TableOk ∧ (loaded hello).Source hello ∧
        pkRepackWith Params.identity (loaded hello) = .next t ∧ t.status.err = .none ∧ 32 ≤ n ∧ n ≤ 524288 ∧
        s2.srclen = BitVec.ofNat 32 n ∧ s2.Holds 0 (t.dst.take n) := by
  intro n hn
  have h' : 32 ≤ n ∧ n ≤ 524288 := by simp at hn; omega
  obtain ⟨t, h1, h2, h3⟩ := repack_identity hello (by decide)
  refine ⟨t, loaded (t.dst.take n), Params.identity_lawful, loaded_tableOk _, loaded_source hello (by decide), h1, h2,
    h'.1, h'.2, ?_, holds_cells _ _ rfl⟩
  rw [loaded, List.length_take, h3, Nat.min_eq_left h'.2]

/-- Every command can answer a next state that meets the premises of the clauses on phases. -/
theorem witness_write_sets :
    [Instr.crcTbl, .crcSum, .dcaComp, .dcaDecomp, .hdrEnc, .hdrDec, .pkRepack, .pkUnpack false, .pkUnpack true,
      .pkValid].all (fun i => (after (exec i .reset) fun _ => ()).isSome) = true ∧
    after (exec (.pkUnpack true) .reset) (fun t => (t.status.phase, t.status.err)) = some (.hdec, .formatError) ∧
    after (pkRepackWith (answering (.dataError, [])) .reset) (fun t => t.status.phase) = some .comp ∧
    tableBuilt.tv = true ∧ decode 0x00000033#32 = .error (.unknownOpcode 0x33#8) := by decide

theorem witness_errors_have_the_listed_causes :
    after (exec (.pkUnpack false) .reset) (fun t => t.status.err) = some .formatError ∧
    (ErrCode.oversize, Phase.size) ∈ raisable .pkRepack := by decide

theorem witness_failed_command :
    after (exec .hdrDec .reset) (fun t => t.status.err) = some .formatError ∧
    after (exec (.pkUnpack true) .reset) (fun t => t.status.err) = some .formatError := by decide

/-- Two states that differ in `DST`, `CRCACC`, `STATUS` and a cell beyond `SRCLEN`; a command that completes,
and a state on which one faults. -/
theorem witness_commands_depend_on_operands :
    let s := loaded hello
    let s2 := { loaded hello with dst := hello, crcacc := 7, status := .refusal, src := cells 0 (hello ++ [1]) }
    s2.srclen = s.srclen ∧ s2.exp = s.exp ∧ s2.h = s.h ∧ s2.table = s.table ∧ s2.tv = s.tv ∧
    (∀ a, a < s.srclen.toNat → Memory.read s2.src a = Memory.read s.src a) ∧
    (∃ t, exec .crcSum s = .next t) ∧
    ∃ f, exec .crcSum { State.reset with srclen := 1 } = .fault f := by
  refine ⟨rfl, rfl, rfl, rfl, rfl, by decide, ?_, _, rfl⟩
  exact ⟨_, (execCrcSum_next_iff _ _).mpr ⟨hello, (State.sourceBytes_ok_iff _ _).mpr
    (loaded_source hello (by decide)), rfl⟩⟩

theorem written_of_holds {s : State} {a : Nat} {bytes : List Byte} (h : s.Holds a bytes) : s.Written a bytes.length :=
  fun k hk => by rw [h k hk]; rfl

/-- A state for each command; the file of row U2 for the last four. -/
theorem witness_commands_complete :
    State.reset.OperandsWritten .crcTbl ∧ State.reset.OperandsWritten .hdrEnc ∧
    (∀ i, i ∈ [Instr.crcSum, .dcaComp, .dcaDecomp, .pkRepack, .hdrDec, .pkUnpack false, .pkUnpack true, .pkValid] →
      (loaded fileId).OperandsWritten i) := by
  have hw := written_of_holds (loaded_source fileId (by decide)).2
  have h32 : (loaded fileId).Written 0 32 := fun k hk => hw k (by have : fileId.length = 37 := rfl
                                                                  omega)
  have hun : ∀ chk, (loaded fileId).OperandsWritten (.pkUnpack chk) := by
    refine fun chk => ⟨fun _ => h32, fun hb hh _ _ => ?_⟩
    have he : hb = k1Header := hh.2.2.unique fileId_headerBytes.2.2 (hh.2.1.trans fileId_headerBytes.2.1.symm)
    subst he
    exact written_of_holds fileId_holds
  refine ⟨trivial, trivial, fun i hi => ?_⟩
  simp only [List.mem_cons, List.not_mem_nil, or_false] at hi
  rcases hi with rfl | rfl | rfl | rfl | rfl | rfl | rfl | rfl
  · exact hw
  · exact hw
  · exact hw
  · exact hw
  · exact fun _ => h32
  · exact hun false
  · exact hun true
  · exact fun _ k hk => h32 k (by omega)

theorem witness_unwritten_operand :
    ¬ ({ State.reset with srclen := 1 } : State).OperandsWritten .crcSum ∧
    exec .crcSum { State.reset with srclen := 1 } = .fault (.unwrittenSource .crcSum 0) := by
  refine ⟨fun h => ?_, rfl⟩
  have := h 0 (by decide)
  simp [State.reset, Memory.read] at this

theorem witness_host_operations_are_listed :
    (0x000000F5#32).extractLsb' 8 4 = 0#4 ∧ (0x00000855#32).extractLsb' 8 4 ≠ 0#4 := by decide

/-- One byte more than the capacity, and, for each operation, bytes that fit. -/
theorem witness_host_operations_return :
    config.bufCap < (HostOp.repack (zeros (config.bufCap + 1))).loads.length ∧
    (HostOp.repack (zeros config.bufCap)).loads.length ≤ config.bufCap ∧
    (HostOp.unpack fileId).loads.length ≤ config.bufCap ∧
    (HostOp.validate fileId).loads.length ≤ config.bufCap := by
  have h := config_lawful.bufCap_ge
  rw [fileSize] at h
  refine ⟨?_, ?_, ?_, ?_⟩
  · rw [HostOp.loads, zeros, List.length_replicate]; omega
  · rw [HostOp.loads, zeros, List.length_replicate]
  · exact Nat.le_trans (by decide : (HostOp.unpack fileId).loads.length ≤ 524288) h
  · exact Nat.le_trans (by decide : (HostOp.validate fileId).loads.length ≤ 524288) h

theorem witness_host_round_trip : State.reset.TableOk ∧ hello.length ≤ config.bufCap :=
  ⟨reset_tableOk, Nat.le_trans (by decide : hello.length ≤ fileSize) config_lawful.bufCap_ge⟩

end Sys2Proof.Tests
end

section
/-! The little-endian helpers (00_scope.md R15): the value of four bytes, each byte of a word, and the two round
trips. -/

namespace Sys2Proof.Machine

/-- The weighted sum of four bytes fits in 32 bits, so `unle32` drops nothing of it. -/
theorem unle32_toNat (a b c d : Byte) :
    (unle32 [a, b, c, d]).toNat = a.toNat + 256 * b.toNat + 65536 * c.toNat + 16777216 * d.toNat := by
  have ha := a.isLt
  have hb := b.isLt
  have hc := c.isLt
  have hd := d.isLt
  show (a.toNat + 256 * b.toNat + 65536 * c.toNat + 16777216 * d.toNat) % 2 ^ 32 = _
  exact Nat.mod_eq_of_lt (by omega)

/-- The bits of a word from position `i` on, as the quotient and remainder that `omega` reads. -/
theorem extractByte_toNat (v : Word) (i : Nat) : (v.extractLsb' i 8).toNat = v.toNat / 2 ^ i % 256 := by
  rw [BitVec.extractLsb'_toNat, Nat.shiftRight_eq_div_pow]

/-- A word is the weighted sum of its four bytes. -/
@[simp] theorem unle32_le32 (v : Word) : unle32 (le32 v) = v := by
  have hv := v.isLt
  apply BitVec.eq_of_toNat_eq
  rw [le32, unle32_toNat]
  simp only [extractByte_toNat]
  omega

/-- Each byte of a weighted sum of four bytes is read back by division by its weight. -/
theorem le32_unle32_four (a b c d : Byte) : le32 (unle32 [a, b, c, d]) = [a, b, c, d] := by
  have ha := a.isLt
  have hb := b.isLt
  have hc := c.isLt
  have hd := d.isLt
  simp only [le32, List.cons.injEq, and_true]
  refine ⟨?_, ?_, ?_, ?_⟩ <;>
    · apply BitVec.eq_of_toNat_eq
      rw [extractByte_toNat, unle32_toNat]
      omega

/-- `unle32` reads four bytes, so it loses nothing of a sequence of just four. -/
theorem le32_unle32 {bs : List Byte} (h : bs.length = 4) : le32 (unle32 bs) = bs := by
  obtain ⟨a, b, c, d, rfl⟩ := List.length_eq_four.mp h
  exact le32_unle32_four a b c d

/-- Settles O30: the bytes of `le32` are its definition, the value of `unle32` is a sum that does not wrap, and the
round trips follow from that sum. -/
theorem littleEndianHelpers : Obligations.LittleEndianHelpers :=
  ⟨fun _ => rfl, unle32_toNat, unle32_le32, fun _ => le32_unle32⟩

end Sys2Proof.Machine
end

section
/-! The step on each form of the host's queue, and what reset leaves (10_state.md R25, R41). -/

namespace Sys2Proof.Machine

theorem access_commandAccess (w : Word) (s : State) : access (commandAccess w) s = issue w s := by
  simp [access, commandAccess, hostWriteReg, wholeWord, regAt]

theorem issue_of_decode_ok {w : Word} {i : Instr} (h : decode w = .ok i) (s : State) : issue w s = exec i s := by
  simp [issue, h]

theorem issue_of_decode_error {w : Word} {u : Undefined} (h : decode w = .error u) (s : State) :
    issue w s = .next s.refuse := by
  simp [issue, h]

theorem step_of_host_nil {s : State} (h : s.host = []) : step s = .next s := by
  simp [step, h]

theorem step_of_host_cons {s : State} {a : HostAccess} {rest : List HostAccess} (h : s.host = a :: rest) :
    step s = access a { s with host := rest } := by
  simp [step, h]

theorem State.withFetchWord_host (s : State) (w : Word) :
    (s.withFetchWord 32 w.toNat).host = commandAccess w :: s.host := by
  rw [State.withFetchWord, Nat.mod_eq_of_lt w.isLt, BitVec.ofNat_toNat, BitVec.setWidth_eq]

/-- Settles O5: a step takes the oldest access, and a word written to `CMD` runs what it decodes to. -/
theorem stepRunsTheDecodedCommand : Obligations.StepRunsTheDecodedCommand := by
  refine ⟨fun s => step_of_host_nil, fun s w i rest hs hd _ => ?_, fun s w i hd _ => ?_⟩
  · rw [step_of_host_cons hs, access_commandAccess, issue_of_decode_ok hd]
  · rw [step_of_host_cons (State.withFetchWord_host s w), access_commandAccess, issue_of_decode_ok hd]
    rfl

/-! ### Reset -/

theorem Header.zero_get (k : Fin 8) : Header.zero.get k = 0 := by
  fin_cases k <;> rfl

theorem State.regValue_t_of_not_tv {s : State} (h : s.tv = false) (i : Fin 256) : s.regValue (.t i) = none := by
  simp [State.regValue, h]

/-- Settles O8: SRC and DST are empty, `TV = 0`, and the other clauses are about values that reset fixes. -/
theorem resetMeetsTheInvariant : Obligations.ResetMeetsTheInvariant where
  src_wf := Memory.reset_wf
  src_index _ hc := absurd hc List.not_mem_nil
  srclen_le := Nat.zero_le _
  dst_le := Nat.zero_le _
  table_ok h := Bool.noConfusion h
  seq_idle := rfl
  status_legal := rfl

theorem statusBits_reset : statusBits ⟨false, false, .idle, .none⟩ false = 0x00000000#32 := by decide

/-- A reset access leaves the values of R41, whatever the state was: none of them comes from it. -/
theorem State.hardReset_values (s : State) :
    s.hardReset.statusWord = 0x00000000#32 ∧ s.hardReset.status = ⟨false, false, .idle, .none⟩ ∧
    s.hardReset.tv = false ∧ s.hardReset.srclen = 0#32 ∧ s.hardReset.dstlen = 0#32 ∧ s.hardReset.dst = [] ∧
    s.hardReset.exp = 0#32 ∧ s.hardReset.crcacc = 0x00000000#32 ∧
    (∀ k : Fin 8, s.hardReset.h.get k = 0x00000000#32) ∧ (∀ i : Fin 256, s.hardReset.regValue (.t i) = none) ∧
    (∀ a, Memory.read s.hardReset.src a = none) ∧ s.hardReset.seq.wrk = [] ∧ s.hardReset.seq.phase = .idle :=
  ⟨statusBits_reset, rfl, rfl, rfl, rfl, rfl, rfl, rfl, Header.zero_get, State.regValue_t_of_not_tv rfl, fun _ => rfl,
    rfl, rfl⟩

/-- Settles O7: a reset access in any state, and power-on as such an access in the reset state itself. -/
theorem resetLeavesTheListedValues : Obligations.ResetLeavesTheListedValues :=
  ⟨fun _ _ hs => ⟨_, step_of_host_cons hs, State.hardReset_values _⟩, State.reset.hardReset_values⟩

end Sys2Proof.Machine
end

section
/-! The register space: the map in both directions, and whole-word reads and writes (10_state.md R39, R40). -/

namespace Sys2Proof.Machine

/-! ### The register map (10_state.md R39) -/

theorem RegName.h_offset_toNat (k : Fin 8) : (RegName.h k).offset.toNat = 0x020 + 4 * k.val := by
  simp only [RegName.offset, BitVec.toNat_ofNat]
  omega

theorem RegName.t_offset_toNat (i : Fin 256) : (RegName.t i).offset.toNat = 0x400 + 4 * i.val := by
  simp only [RegName.offset, BitVec.toNat_ofNat]
  omega

/-- The registers listed by their own offset stand below `H`. -/
theorem ne_ofNat_of_le {off : BitVec 12} (h : 0x020 ≤ off.toNat) {n : Nat} (hn : n < 0x020) :
    off ≠ BitVec.ofNat 12 n := by
  rintro rfl
  rw [BitVec.toNat_ofNat] at h
  omega

theorem regAt_of_h_range {off : BitVec 12} (hh : 0x020 ≤ off.toNat ∧ off.toNat < 0x040) :
    regAt off = .h ⟨(off.toNat - 0x020) / 4, by omega⟩ := by
  simp [regAt, ne_ofNat_of_le hh.1, hh]

theorem regAt_of_t_range {off : BitVec 12} (ht : 0x400 ≤ off.toNat ∧ off.toNat < 0x800) :
    regAt off = .t ⟨(off.toNat - 0x400) / 4, by omega⟩ := by
  have hh : ¬ (0x020 ≤ off.toNat ∧ off.toNat < 0x040) := by omega
  simp [regAt, ne_ofNat_of_le (off := off) (by omega), hh, ht]

theorem regAt_offset {r : RegName} (hr : r ≠ .reserved) : regAt r.offset = r := by
  cases r with
  | h k =>
    have hk := RegName.h_offset_toNat k
    rw [regAt_of_h_range (by omega)]
    simp [hk]
  | t i =>
    have hi := RegName.t_offset_toNat i
    rw [regAt_of_t_range (by omega)]
    simp [hi]
  | reserved => exact absurd rfl hr
  | cmd | status | srclen | dstlen | exp | crcacc => rfl

theorem RegName.offset_aligned (r : RegName) : r.offset.toNat % 4 = 0 := by
  cases r with
  | h k => rw [RegName.h_offset_toNat]; omega
  | t i => rw [RegName.t_offset_toNat]; omega
  | cmd | status | srclen | dstlen | exp | crcacc | reserved => rfl

theorem offset_regAt {off : BitVec 12} (ha : off.toNat % 4 = 0) (hr : regAt off ≠ .reserved) :
    (regAt off).offset = off := by
  by_cases hh : 0x020 ≤ off.toNat ∧ off.toNat < 0x040
  · rw [regAt_of_h_range hh]
    refine BitVec.eq_of_toNat_eq ?_
    rw [RegName.h_offset_toNat]
    dsimp only
    omega
  by_cases ht : 0x400 ≤ off.toNat ∧ off.toNat < 0x800
  · rw [regAt_of_t_range ht]
    refine BitVec.eq_of_toNat_eq ?_
    rw [RegName.t_offset_toNat]
    dsimp only
    omega
  simp only [regAt, hh, ht, dite_false] at hr ⊢
  split_ifs at hr ⊢ <;> simp_all [RegName.offset]

theorem regAt_eq_reserved_iff {off : BitVec 12} (ha : off.toNat % 4 = 0) :
    regAt off = .reserved ↔
      off.toNat = 0x018 ∨ off.toNat = 0x01C ∨ (0x040 ≤ off.toNat ∧ off.toNat ≤ 0x3FC) ∨ 0x800 ≤ off.toNat := by
  have hlt := off.isLt
  by_cases hh : 0x020 ≤ off.toNat ∧ off.toNat < 0x040
  · simp only [regAt_of_h_range hh, reduceCtorEq, false_iff]
    omega
  by_cases ht : 0x400 ≤ off.toNat ∧ off.toNat < 0x800
  · simp only [regAt_of_t_range ht, reduceCtorEq, false_iff]
    omega
  simp only [regAt, hh, ht, dite_false, ← BitVec.toNat_inj, BitVec.toNat_ofNat]
  split_ifs <;> simp <;> omega

/-- Settles O10: both directions split on the ranges of `H` and `T`, where an offset is a base and four
times an index. -/
theorem registerMapIsTheListedOne : Obligations.RegisterMapIsTheListedOne :=
  ⟨fun r hr => ⟨regAt_offset hr, r.offset_aligned⟩, fun _ => offset_regAt, fun _ => regAt_eq_reserved_iff,
    rfl, rfl, rfl, rfl, rfl, rfl, RegName.h_offset_toNat, RegName.t_offset_toNat⟩

/-! ### Whole-word reads and writes (10_state.md R40) -/

theorem wholeWord_of_aligned {off : BitVec 12} (h : off.toNat % 4 = 0) : wholeWord 32 off = true := by
  simp [wholeWord, h]

theorem State.hostReadReg_of_some {s : State} {off : BitVec 12} {w : Word} (ha : off.toNat % 4 = 0)
    (hw : s.regValue (regAt off) = some w) : s.hostReadReg 32 off = s.reply (.word w) := by
  simp [State.hostReadReg, wholeWord_of_aligned ha, hw]

theorem State.hostReadReg_of_none {s : State} {off : BitVec 12} (ha : off.toNat % 4 = 0)
    (hw : s.regValue (regAt off) = none) : s.hostReadReg 32 off = s.replyFreeWord := by
  simp [State.hostReadReg, wholeWord_of_aligned ha, hw]

theorem State.regValue_eq_none_iff (s : State) (r : RegName) :
    s.regValue r = none ↔ (∃ i, r = .t i) ∧ s.tv = false := by
  cases r <;> simp [State.regValue]

/-- Settles O11: a register with a value is answered by `reply`, and only `T[i]` while `TV = 0` has none. -/
theorem registerReadsHaveNoSideEffect : Obligations.RegisterReadsHaveNoSideEffect := by
  intro s off rest hs ha
  have hstep : step s = .next (State.hostReadReg 32 off { s with host := rest }) := step_of_host_cons hs
  cases hv : ({ s with host := rest } : State).regValue (regAt off) with
  | some w =>
    rw [State.hostReadReg_of_some ha hv] at hstep
    have answer {r : RegName} {x : Word} (hr : regAt off = r)
        (hx : ({ s with host := rest } : State).regValue r = some x) : w = x := by
      rw [hr, hx] at hv
      exact (Option.some.inj hv).symm
    refine ⟨_, w, hstep, rfl, fun _ => rfl, fun hr => hr.elim (answer · rfl) (answer · rfl), (answer · rfl),
      (answer · rfl), (answer · rfl), (answer · rfl), (answer · rfl), fun k hr => answer hr rfl,
      fun i hr htv => answer hr (if_pos htv), fun i hr htv => ?_⟩
    have hnone : ({ s with host := rest } : State).regValue (.t i) = none := State.regValue_t_of_not_tv htv i
    rw [hr, hnone] at hv
    cases hv
  | none =>
    rw [State.hostReadReg_of_none ha hv] at hstep
    obtain ⟨⟨i, hi⟩, htv⟩ := (State.regValue_eq_none_iff _ _).mp hv
    have htv : s.tv = false := htv
    refine ⟨_, Config.freeWord s.draws, hstep, rfl, ?_⟩
    simp [hi, htv]

/-- Settles O12: one case per register, of which three store. -/
theorem registerWritesStoreOrAreIgnored : Obligations.RegisterWritesStoreOrAreIgnored := by
  intro s off v rest hs ha hc
  have hstep : step s = .next (State.writeReg (regAt off) v { s with host := rest }) := by
    rw [step_of_host_cons hs, access, hostWriteReg, if_pos (wholeWord_of_aligned ha), if_neg hc]
  refine ⟨_, hstep, ?_⟩
  clear hstep
  generalize regAt off = r
  cases r with
  | srclen => by_cases hv : v.toNat ≤ config.bufCap <;> simp [State.writeReg, State.writeSrclen, hv]
  | h j =>
    refine ⟨rfl, rfl, rfl, fun k => ?_⟩
    by_cases hk : j = k
    · simp [State.writeReg, hk]
    · simpa [State.writeReg, hk] using Header.get_set_other s.h j k v (Ne.symm hk)
  | exp => simp [State.writeReg]
  | cmd | status | dstlen | crcacc | t | reserved => simp [State.writeReg]

end Sys2Proof.Machine
end

section
/-! The `STATUS` word as a weighted sum of its fields (10_state.md R26). -/

namespace Sys2Proof.Machine

/-- Appending bits below multiplies by their weight and adds them. -/
theorem append_toNat {m n : Nat} (x : BitVec m) (y : BitVec n) : (x ++ y).toNat = x.toNat * 2 ^ n + y.toNat := by
  rw [BitVec.toNat_append, ← Nat.shiftLeft_add_eq_or_of_lt y.isLt, Nat.shiftLeft_eq]

theorem statusBits_toNat (x : Status) (tv : Bool) :
    (statusBits x tv).toNat = x.err.code.toNat * 256 + x.phase.code.toNat * 16 + tv.toNat * 4 +
      x.ill.toNat * 2 + x.done.toNat := by
  simp only [statusBits, append_toNat, BitVec.toNat_ofBool, BitVec.toNat_ofNat]
  omega

/-- A bit of a word is the remainder by 2 of the quotient by its weight. -/
theorem getLsbD_eq_of_div_mod {w : Word} {i : Nat} {b : Bool} (h : w.toNat / 2 ^ i % 2 = b.toNat) :
    w.getLsbD i = b := by
  rw [← BitVec.testBit_toNat, Nat.testBit_eq_decide_div_mod_eq, h]
  cases b <;> rfl

theorem statusBits_flags (x : Status) (tv : Bool) :
    (statusBits x tv).getLsbD 0 = x.done ∧ (statusBits x tv).getLsbD 1 = x.ill ∧
    (statusBits x tv).getLsbD 2 = tv ∧ (statusBits x tv).getLsbD 3 = false := by
  have ht := tv.toNat_lt
  have hi := x.ill.toNat_lt
  have hd := x.done.toNat_lt
  refine ⟨?_, ?_, ?_, ?_⟩ <;>
    · apply getLsbD_eq_of_div_mod
      simp only [statusBits_toNat, Bool.toNat_false]
      omega

theorem statusBits_fields (x : Status) (tv : Bool) :
    (statusBits x tv).extractLsb' 4 4 = x.phase.code ∧ (statusBits x tv).extractLsb' 8 4 = x.err.code ∧
    (statusBits x tv).extractLsb' 12 20 = 0#20 := by
  have he := x.err.code.isLt
  have hp := x.phase.code.isLt
  have ht := tv.toNat_lt
  have hi := x.ill.toNat_lt
  have hd := x.done.toNat_lt
  simp only [← BitVec.toNat_inj, BitVec.extractLsb'_toNat, Nat.shiftRight_eq_div_pow, statusBits_toNat,
    BitVec.toNat_ofNat]
  omega

/-- Settles O18: the bits and fields are read off the weighted sum that the word is. -/
theorem statusWordLayout : Obligations.StatusWordLayout := by
  refine ⟨fun s => ?_, rfl, rfl⟩
  obtain ⟨hdone, hill, htv, hzero⟩ := statusBits_flags s.status s.tv
  obtain ⟨hphase, herr, hrsv⟩ := statusBits_fields s.status s.tv
  exact ⟨hdone, hill, htv, hzero, hphase, herr, hrsv, statusBits_toNat s.status s.tv⟩

end Sys2Proof.Machine
end

section
/-! How a command ends, said once for all nine: the end fixes what the command wrote, and later proofs about a
command cite `exec_ends` and the facts about `Ends` below. -/

namespace Sys2Proof.Machine

/-! ### Lengths of what the commands produce -/

theorem encodeHeader_length (h : Header) : (encodeHeader h).length = hdrSize := rfl

/-- By CP2, what the adapter's `compress` answers fits `DST` (41_codec_adapter.md R144). -/
theorem compress_length_le {P : Params} (hP : P.CP2) {input out : List Byte} (h : compress P input = .ok out) :
    out.length ≤ P.bufCap := by
  obtain ⟨hb, hd⟩ := (compress_ok_iff P input out).mp h
  exact (hP _ _ _ (.inl hd)).trans hb

/-- By the exact-size rule, what the adapter's `decompress` answers fits `DST` (41_codec_adapter.md R148, R149). -/
theorem decompress_length_le {P : Params} {input out : List Byte} {expected : Word}
    (h : decompress P input expected = .ok out) : out.length ≤ P.bufCap := by
  obtain ⟨hb, -, hl⟩ := (decompress_ok_iff P input out expected).mp h
  exact hl.trans_le hb

theorem decompressErr_mem_raisable_pkUnpack (k : AdapterKind) (chk : Bool) :
    (k.decompressErr, Phase.decomp) ∈ raisable (.pkUnpack chk) := by
  cases k <;> cases chk <;> decide

/-! ### The two ends of a command (43_container.md R177, 60_exceptions.md R215) -/

/-- The table of a command that ends at the phase `p`: `CRC.TBL` builds it, and the guard has run in the commands
that are past `P_TBL` at `p` (43_container.md R176, 40_crc.md R123). -/
def State.tableAt (i : Instr) (p : Phase) (s : State) : State :=
  match i with
  | .crcTbl => s.buildTable
  | .crcSum => s.ensureTable
  | .pkRepack => if p = .comp then s else s.ensureTable
  | .pkUnpack true => if p ∈ [Phase.hdec, .ver, .bounds] then s else s.ensureTable
  | .dcaComp | .dcaDecomp | .hdrEnc | .hdrDec | .pkUnpack false | .pkValid => s

/-- The state after a success of `i` that may write `bytes` to `DST`, `hd` to `H` and `sum` to `CRCACC`; which of them
it does write is fixed by `i` (10_state.md R42). -/
def State.succeed (i : Instr) (bytes : List Byte) (hd : Header) (sum : Word) (s : State) : State :=
  { s with
    status := .success
    dst := if producesBytes i then bytes else s.dst
    h := if i = .hdrDec then hd else s.h
    crcacc := if i = .crcSum then sum else s.crcacc
    seq := .idle }

/-- The state after the error `e` of `i` at the phase `p` (60_exceptions.md R215). -/
def State.fail (i : Instr) (e : ErrCode) (p : Phase) (s : State) : State :=
  { s with
    status := .failure e p
    dst := if producesBytes i then [] else s.dst
    seq := .idle }

/-- How the command `i` ends from `s` when it completes: in a success, whose bytes fit `DST`, or in an error that
60_exceptions.md R211 lists for it; in both with the table as `tableAt` says for the phase it ends at. -/
inductive Ends (i : Instr) (s : State) : State → Prop
  | success (bytes : List Byte) (hd : Header) (sum : Word) (hfit : bytes.length ≤ config.bufCap) :
    Ends i s ((s.tableAt i .done).succeed i bytes hd sum)
  | failure (e : ErrCode) (p : Phase) (hlisted : (e, p) ∈ raisable i) : Ends i s ((s.tableAt i p).fail i e p)

theorem Ends.of_success {i : Instr} {s b : State} (hb : s.tableAt i .done = b) {bytes : List Byte}
    (hfit : bytes.length ≤ config.bufCap) (hd : Header) (sum : Word) : Ends i s (b.succeed i bytes hd sum) :=
  hb ▸ .success bytes hd sum hfit

theorem Ends.of_failure {i : Instr} {s b : State} {e : ErrCode} {p : Phase} (hb : s.tableAt i p = b)
    (hlisted : (e, p) ∈ raisable i) : Ends i s (b.fail i e p) :=
  hb ▸ .failure e p hlisted

theorem hdrSize_le_bufCap : hdrSize ≤ config.bufCap :=
  le_trans (by decide) config_lawful.bufCap_ge

/-- The guard looks at `TV` alone, so what the sequencer holds passes through it. -/
theorem State.ensureTable_setSeq (s : State) (q : Sequencer) :
    ({ s with seq := q } : State).ensureTable = { s.ensureTable with seq := q } := by
  unfold State.ensureTable
  split <;> rfl

/-! ### Each command reaches one of the two ends -/

theorem execCrcTbl_ends {s t : State} (h : execCrcTbl s = .next t) : Ends .crcTbl s t := by
  cases h
  exact .success [] .zero 0 (Nat.zero_le _)

theorem execCrcSum_ends {s t : State} (h : execCrcSum s = .next t) : Ends .crcSum s t := by
  obtain ⟨bytes, -, rfl⟩ := (execCrcSum_next_iff s t).mp h
  have htable : (s.begin .tbl).ensureTable = s.ensureTable.begin .tbl := s.ensureTable_setSeq _
  have hdone : s.tableAt .crcSum .done = s.ensureTable := rfl
  rw [htable]
  generalize s.ensureTable = b at hdone
  have h := Ends.of_success hdone (bytes := []) (Nat.zero_le _) .zero (checksum b.table bytes)
  exact h

theorem execHdrEnc_ends {s t : State} (h : execHdrEnc s = .next t) : Ends .hdrEnc s t := by
  cases h
  exact .success (encodeHeader s.h) .zero 0 hdrSize_le_bufCap

theorem execHdrDec_ends {s t : State} (h : execHdrDec s = .next t) : Ends .hdrDec s t := by
  obtain ⟨-, rfl⟩ | ⟨-, bytes, -, rfl⟩ := (execHdrDec_next_iff s t).mp h
  · exact .failure .formatError .hdec (by decide)
  · exact .success [] (decodeHeader bytes) 0 (Nat.zero_le _)

theorem execDcaComp_ends {s t : State} (h : execDcaComp s = .next t) : Ends .dcaComp s t := by
  obtain ⟨input, -, rfl⟩ := (dcaCompWith_next_iff config s t).mp h
  cases hr : compress config input with
  | error k => exact .failure k.compressErr .comp (by cases k <;> decide)
  | ok out => exact .success out .zero 0 (compress_length_le config_lawful.cp2 hr)

theorem execDcaDecomp_ends {s t : State} (h : execDcaDecomp s = .next t) : Ends .dcaDecomp s t := by
  obtain ⟨input, -, rfl⟩ := (dcaDecompWith_next_iff config s t).mp h
  cases hr : decompress config input s.exp with
  | error k => exact .failure k.decompressErr .decomp (by cases k <;> decide)
  | ok out => exact .success out .zero 0 (decompress_length_le hr)

theorem execPkValid_ends {s t : State} (h : execPkValid s = .next t) : Ends .pkValid s t := by
  obtain ⟨-, rfl⟩ | ⟨-, vb, -, rfl⟩ := (execPkValid_next_iff s t).mp h
  · exact .failure .formatError .hdec (by decide)
  · split
    · exact .failure .formatError .ver (by decide)
    · exact .success [] .zero 0 (Nat.zero_le _)

/-- The container has the exact file size whenever the padding is not negative (43_container.md R182). -/
theorem container_length {c : List Byte} (h : ¬ paddingSize c.length < 0) (hd : Header) :
    (encodeHeader hd ++ c ++ zeros (paddingSize c.length).toNat).length = fileSize := by
  simp only [List.length_append, encodeHeader_length, zeros, List.length_replicate]
  simp only [paddingSize, fileSize, hdrSize] at h ⊢
  omega

/-- `PK.REPACK` from the compressed payload on, with the table that the guard leaves, whatever it holds. -/
theorem State.packCompressed_setSeq (s : State) (q : Sequencer) (c : List Byte) :
    ({ s with seq := q } : State).packCompressed c =
      if paddingSize c.length < 0 then s.ensureTable.fail .pkRepack .oversize .size
      else s.ensureTable.succeed .pkRepack
        (encodeHeader (packHeader s.ensureTable.srclen c.length (checksum s.ensureTable.table c)) ++ c ++
          zeros (paddingSize c.length).toNat) .zero 0 := by
  have htable : ((({ s with seq := q } : State).stage c).enter .tbl).ensureTable =
      { s.ensureTable with seq := { q with wrk := c, phase := .tbl } } := s.ensureTable_setSeq _
  simp only [State.packCompressed, htable, State.stage_seq]
  generalize s.ensureTable = b
  by_cases hpad : paddingSize c.length < 0
  · simp only [hpad, if_true, State.enter, State.runCrc, State.latchHeader, State.raise, State.fail]
  · simp only [hpad, if_false, State.enter, State.runCrc, State.latchHeader, State.putDst, State.complete,
      State.succeed, producesBytes, if_true, reduceCtorEq]

theorem State.packCompressed_ends (s : State) (q : Sequencer) (c : List Byte) :
    Ends .pkRepack s (({ s with seq := q } : State).packCompressed c) := by
  rw [State.packCompressed_setSeq]
  split
  · exact .of_failure rfl (by decide)
  · rename_i hpad
    exact .of_success rfl ((container_length hpad _).trans_le config_lawful.bufCap_ge) .zero 0

theorem execPkRepack_ends {s t : State} (h : execPkRepack s = .next t) : Ends .pkRepack s t := by
  obtain ⟨payload, -, rfl⟩ := (pkRepackWith_next_iff config s t).mp h
  cases compress config payload with
  | error k => exact .failure k.compressErr .comp (by cases k <;> decide)
  | ok bytes => exact s.packCompressed_ends _ bytes

/-- The integrity check of `PK.UNPACK`, with the table that the guard leaves, whatever it holds. -/
theorem State.unpackChecked_true_setSeq (P : Params) (s : State) (q : Sequencer) (c : List Byte) :
    ({ s with seq := q } : State).unpackChecked P true c =
      if checksum s.ensureTable.table c ≠ q.hl.checksum then s.ensureTable.fail (.pkUnpack true) .formatError .chk
      else
        State.unpackPayload P true c
          { s.ensureTable with seq := { q with phase := .chk, acc := checksum s.ensureTable.table c } } := by
  have htable : (({ s with seq := q } : State).enter .tbl).ensureTable =
      { s.ensureTable with seq := { q with phase := .tbl } } := s.ensureTable_setSeq _
  simp only [State.unpackChecked, if_true, htable]
  rfl

/-- The decompression of `PK.UNPACK` ends in the payload or in an adapter error at `P_DECOMP`; `b` is the state with the
table as the command leaves it. -/
theorem State.unpackPayload_ends {s b : State} {chk : Bool} (q : Sequencer) (c : List Byte)
    (hdone : s.tableAt (.pkUnpack chk) .done = b) (hdecomp : s.tableAt (.pkUnpack chk) .decomp = b) :
    Ends (.pkUnpack chk) s (({ b with seq := q } : State).unpackPayload config chk c) := by
  cases hr : decompress config c q.hl.realSize with
  | error k =>
    have hend : ({ b with seq := q } : State).unpackPayload config chk c =
        b.fail (.pkUnpack chk) k.decompressErr .decomp := by
      simp only [State.unpackPayload, State.finishDecompress, hr]; rfl
    exact hend ▸ .of_failure hdecomp (decompressErr_mem_raisable_pkUnpack k chk)
  | ok out =>
    have hend : ({ b with seq := q } : State).unpackPayload config chk c =
        b.succeed (.pkUnpack chk) out .zero 0 := by
      simp only [State.unpackPayload, State.finishDecompress, hr]; rfl
    exact hend ▸ .of_success hdone (decompress_length_le hr) .zero 0

theorem State.unpackChecked_ends (s : State) (q : Sequencer) (chk : Bool) (c : List Byte) :
    Ends (.pkUnpack chk) s (({ s with seq := q } : State).unpackChecked config chk c) := by
  cases chk with
  | false => exact State.unpackPayload_ends q c rfl rfl
  | true =>
    rw [State.unpackChecked_true_setSeq]
    split
    · exact .of_failure rfl (by decide)
    · exact State.unpackPayload_ends _ c rfl rfl

theorem formatError_mem_raisable_pkUnpack (chk : Bool) {p : Phase} (hp : p ∈ [Phase.hdec, .ver, .bounds]) :
    (ErrCode.formatError, p) ∈ raisable (.pkUnpack chk) := by
  cases chk <;> revert p <;> decide

theorem execPkUnpack_ends {chk : Bool} {s t : State} (h : execPkUnpack chk s = .next t) :
    Ends (.pkUnpack chk) s t := by
  have early : ∀ p ∈ [Phase.hdec, .ver, .bounds], Ends (.pkUnpack chk) s (s.fail (.pkUnpack chk) .formatError p) := by
    intro p hp
    have hs : s.tableAt (.pkUnpack chk) p = s := by cases chk <;> simp [State.tableAt, hp]
    have h := Ends.failure (s := s) .formatError p (formatError_mem_raisable_pkUnpack chk hp)
    rwa [hs] at h
  obtain ⟨-, rfl⟩ | ⟨-, hb, -, ⟨-, rfl⟩ | ⟨-, -, rfl⟩ | ⟨-, -, c, -, rfl⟩⟩ :=
    (pkUnpackWith_next_iff config chk s t).mp h
  · exact early .hdec (by decide)
  · exact early .ver (by decide)
  · exact early .bounds (by decide)
  · exact s.unpackChecked_ends _ chk c

/-- Every command that completes does so in one of the two ends, whatever the state and the core. -/
theorem exec_ends {i : Instr} {s t : State} (h : exec i s = .next t) : Ends i s t := by
  cases i with
  | crcTbl => exact execCrcTbl_ends h
  | crcSum => exact execCrcSum_ends h
  | dcaComp => exact execDcaComp_ends h
  | dcaDecomp => exact execDcaDecomp_ends h
  | hdrEnc => exact execHdrEnc_ends h
  | hdrDec => exact execHdrDec_ends h
  | pkRepack => exact execPkRepack_ends h
  | pkUnpack chk => exact execPkUnpack_ends h
  | pkValid => exact execPkValid_ends h

/-! ### The table as a command leaves it -/

theorem State.tableAt_cases (i : Instr) (p : Phase) (s : State) :
    s.tableAt i p = s ∨ s.tableAt i p = s.ensureTable ∨ s.tableAt i p = s.buildTable := by
  cases i with
  | crcTbl => exact .inr (.inr rfl)
  | crcSum => exact .inr (.inl rfl)
  | pkRepack => exact (ite_eq_or_eq (p = .comp) s s.ensureTable).imp_right .inl
  | pkUnpack chk =>
    cases chk with
    | false => exact .inl rfl
    | true => exact (ite_eq_or_eq (p ∈ [Phase.hdec, .ver, .bounds]) s s.ensureTable).imp_right .inl
  | dcaComp | dcaDecomp | hdrEnc | hdrDec | pkValid => exact .inl rfl

/-- Whatever a command does to the table, it goes through the guard or `CRC.TBL` and reaches no other field. -/
theorem State.tableAt_eq (i : Instr) (p : Phase) (s : State) :
    s.tableAt i p = { s with table := (s.tableAt i p).table, tv := (s.tableAt i p).tv } := by
  obtain h | h | h := State.tableAt_cases i p s
  · rw [h]
  · rw [h, State.ensureTable]
    split <;> rfl
  · rw [h]
    rfl

section
variable (i : Instr) (p : Phase) (s : State)

@[simp] theorem State.tableAt_srclen : (s.tableAt i p).srclen = s.srclen := by rw [s.tableAt_eq i p]
@[simp] theorem State.tableAt_exp : (s.tableAt i p).exp = s.exp := by rw [s.tableAt_eq i p]
@[simp] theorem State.tableAt_crcacc : (s.tableAt i p).crcacc = s.crcacc := by rw [s.tableAt_eq i p]
@[simp] theorem State.tableAt_h : (s.tableAt i p).h = s.h := by rw [s.tableAt_eq i p]
@[simp] theorem State.tableAt_src : (s.tableAt i p).src = s.src := by rw [s.tableAt_eq i p]
@[simp] theorem State.tableAt_dst : (s.tableAt i p).dst = s.dst := by rw [s.tableAt_eq i p]
@[simp] theorem State.tableAt_host : (s.tableAt i p).host = s.host := by rw [s.tableAt_eq i p]
@[simp] theorem State.tableAt_reads : (s.tableAt i p).reads = s.reads := by rw [s.tableAt_eq i p]
@[simp] theorem State.tableAt_draws : (s.tableAt i p).draws = s.draws := by rw [s.tableAt_eq i p]

end

theorem State.TableOk.ensureTable {s : State} (h : s.TableOk) : s.ensureTable.TableOk :=
  fun _ => s.ensureTable_table h

theorem State.TableOk.tableAt {s : State} (h : s.TableOk) (i : Instr) (p : Phase) : (s.tableAt i p).TableOk := by
  obtain he | he | he := State.tableAt_cases i p s <;> rw [he]
  · exact h
  · exact h.ensureTable
  · exact fun _ => rfl

theorem State.tableAt_tv {s : State} (h : s.tv = true) (i : Instr) (p : Phase) : (s.tableAt i p).tv = true := by
  obtain he | he | he := State.tableAt_cases i p s <;> rw [he]
  · exact h
  · exact s.ensureTable_tv
  · rfl

/-- A valid table is never changed: the command leaves `TABLE`, which it was (10_state.md R36). -/
theorem State.tableAt_table {s : State} (h : s.tv = true) (hok : s.TableOk) (i : Instr) (p : Phase) :
    (s.tableAt i p).table = s.table := by
  rw [hok h]
  exact hok.tableAt i p (State.tableAt_tv h i p)

/-! ### What every end of a command says of the state's fields -/

theorem Ends.frame {i : Instr} {s t : State} (h : Ends i s t) :
    t.srclen = s.srclen ∧ t.exp = s.exp ∧ t.src = s.src ∧ t.host = s.host ∧ t.reads = s.reads ∧ t.draws = s.draws := by
  cases h <;> simp [State.succeed, State.fail]

theorem Ends.seq_idle {i : Instr} {s t : State} (h : Ends i s t) : t.seq = .idle := by
  cases h <;> rfl

theorem Ends.done_not_ill {i : Instr} {s t : State} (h : Ends i s t) : t.status.done = true ∧ t.status.ill = false := by
  cases h <;> exact ⟨rfl, rfl⟩

theorem Ends.h_of_ne_hdrDec {i : Instr} {s t : State} (h : Ends i s t) (hi : i ≠ .hdrDec) : t.h = s.h := by
  cases h <;> simp [State.succeed, State.fail, hi]

theorem Ends.h_of_err {i : Instr} {s t : State} (h : Ends i s t) (he : t.status.err ≠ .none) : t.h = s.h := by
  cases h with
  | success => exact absurd rfl he
  | failure e p _ => exact s.tableAt_h i p

theorem Ends.crcacc {i : Instr} {s t : State} (h : Ends i s t) (hi : i ≠ .crcSum) : t.crcacc = s.crcacc := by
  cases h <;> simp [State.succeed, State.fail, hi]

theorem Ends.dst_of_not_producesBytes {i : Instr} {s t : State} (h : Ends i s t) (hi : producesBytes i = false) :
    t.dst = s.dst := by
  cases h <;> simp [State.succeed, State.fail, hi]

theorem Ends.dst_length_le {i : Instr} {s t : State} (h : Ends i s t) (hs : s.dst.length ≤ config.bufCap) :
    t.dst.length ≤ config.bufCap := by
  cases hi : producesBytes i with
  | false => rwa [h.dst_of_not_producesBytes hi]
  | true => cases h <;> simp_all [State.succeed, State.fail]

/-- The table that a completed command leaves is fixed by the phase that `STATUS` shows. -/
theorem Ends.table {i : Instr} {s t : State} (h : Ends i s t) :
    t.table = (s.tableAt i t.status.phase).table ∧ t.tv = (s.tableAt i t.status.phase).tv := by
  cases h <;> exact ⟨rfl, rfl⟩

theorem legal_of_mem_raisable {i : Instr} {e : ErrCode} {p : Phase} (h : (e, p) ∈ raisable i) :
    (Status.failure e p).legal = true := by
  have key : ∀ ep ∈ raisable i, (Status.failure ep.1 ep.2).legal = true := by
    cases i with
    | pkUnpack chk => cases chk <;> decide
    | _ => decide
  exact key (e, p) h

theorem Ends.status_legal {i : Instr} {s t : State} (h : Ends i s t) : t.status.legal = true := by
  cases h with
  | success => rfl
  | failure e p hlisted => exact legal_of_mem_raisable hlisted

end Sys2Proof.Machine
end

section
/-! The invariant along every access (10_state.md R24 to R37). -/

namespace Sys2Proof.Machine

theorem Ends.inv {i : Instr} {s t : State} (h : Ends i s t) (hs : s.Inv) : t.Inv := by
  obtain ⟨hsrclen, -, hsrc, -⟩ := h.frame
  obtain ⟨htable, htv⟩ := h.table
  exact
    { src_wf := by rw [hsrc]; exact hs.src_wf
      src_index := by rw [hsrc]; exact hs.src_index
      srclen_le := by rw [hsrclen]; exact hs.srclen_le
      dst_le := h.dst_length_le hs.dst_le
      table_ok := by rw [State.TableOk, htable, htv]; exact hs.table_ok.tableAt i _
      seq_idle := h.seq_idle
      status_legal := h.status_legal }

/-- The invariant does not speak of the model's own three fields. -/
theorem State.Inv.setHostSide {s : State} (hs : s.Inv) (host : List HostAccess) (reads : List HostRead) (draws : Nat) :
    ({ s with host := host, reads := reads, draws := draws } : State).Inv :=
  ⟨hs.src_wf, hs.src_index, hs.srclen_le, hs.dst_le, hs.table_ok, hs.seq_idle, hs.status_legal⟩

theorem State.Inv.refuse {s : State} (hs : s.Inv) : s.refuse.Inv :=
  ⟨hs.src_wf, hs.src_index, hs.srclen_le, hs.dst_le, hs.table_ok, hs.seq_idle, rfl⟩

theorem State.Inv.hostReadReg {s : State} (hs : s.Inv) (width : Nat) (off : BitVec 12) :
    (s.hostReadReg width off).Inv := by
  unfold State.hostReadReg
  split
  · split <;> exact hs.setHostSide ..
  · exact hs.setHostSide ..

theorem State.Inv.hostReadSrc {s : State} (hs : s.Inv) (index : Nat) : (s.hostReadSrc index).Inv := by
  unfold State.hostReadSrc
  split <;> exact hs.setHostSide ..

theorem State.Inv.hostReadDst {s : State} (hs : s.Inv) (index : Nat) : (s.hostReadDst index).Inv := by
  unfold State.hostReadDst
  split <;> exact hs.setHostSide ..

theorem State.Inv.hostWriteSrc {s : State} (hs : s.Inv) (index : Nat) (b : Byte) : (s.hostWriteSrc index b).Inv := by
  unfold State.hostWriteSrc
  split
  · rename_i hlt
    refine { hs with src_wf := Memory.write_wf _ _ _ hs.src_wf, src_index := fun c hc => ?_ }
    obtain rfl | hmem := Memory.mem_write _ _ _ _ hc
    · exact hlt
    · exact hs.src_index c hmem
  · exact hs

theorem State.Inv.writeReg {s : State} (hs : s.Inv) (r : RegName) (v : Word) : (s.writeReg r v).Inv := by
  cases r with
  | srclen =>
    rw [State.writeReg, State.writeSrclen]
    split
    · rename_i hle
      exact { hs with srclen_le := hle }
    · exact hs
  | exp | h => exact { hs with }
  | cmd | status | dstlen | crcacc | t | reserved => exact hs

theorem issue_inv {s t : State} {w : Word} (h : issue w s = .next t) (hs : s.Inv) : t.Inv := by
  cases hd : decode w with
  | ok i =>
    rw [issue_of_decode_ok hd] at h
    exact (exec_ends h).inv hs
  | error u =>
    rw [issue_of_decode_error hd] at h
    cases h
    exact hs.refuse

theorem hostWriteReg_inv {s t : State} {width : Nat} {off : BitVec 12} {v : Word}
    (h : hostWriteReg width off v s = .next t) (hs : s.Inv) : t.Inv := by
  unfold hostWriteReg at h
  split at h
  · split at h
    · exact issue_inv h hs
    · cases h
      exact hs.writeReg _ v
  · cases h
    exact hs

theorem access_inv {s t : State} {a : HostAccess} (h : access a s = .next t) (hs : s.Inv) : t.Inv := by
  cases a with
  | writeReg width off v => exact hostWriteReg_inv h hs
  | readReg width off => cases h; exact hs.hostReadReg width off
  | writeSrc index b => cases h; exact hs.hostWriteSrc index b
  | readSrc index => cases h; exact hs.hostReadSrc index
  | writeDst index b => cases h; exact hs
  | readDst index => cases h; exact hs.hostReadDst index
  | reset => cases h; exact resetMeetsTheInvariant.setHostSide s.host s.reads s.draws

/-- Settles O9: a command keeps the invariant by the way it ends, and each other access by what it writes. -/
theorem stepKeepsTheInvariant : Obligations.StepKeepsTheInvariant := by
  intro s t hs h
  cases hhost : s.host with
  | nil =>
    rw [step_of_host_nil hhost] at h
    cases h
    exact hs
  | cons a rest =>
    rw [step_of_host_cons hhost] at h
    exact access_inv h (hs.setHostSide rest s.reads s.draws)

end Sys2Proof.Machine
end

section
/-! The write sets of the commands (10_state.md R42). -/

namespace Sys2Proof.Machine

/-- These commands walk no `P_TBL`, so they leave the table alone (43_container.md R176). -/
theorem State.tableAt_of_no_guard {i : Instr}
    (hi : i ∈ [Instr.dcaComp, .dcaDecomp, .hdrEnc, .hdrDec, .pkUnpack false, .pkValid]) (p : Phase) (s : State) :
    s.tableAt i p = s := by
  simp only [List.mem_cons, List.not_mem_nil, or_false] at hi
  obtain rfl | rfl | rfl | rfl | rfl | rfl := hi <;> rfl

theorem producesBytes_eq_false_of_mem {i : Instr} (hi : i ∈ [Instr.crcTbl, .crcSum, .hdrDec, .pkValid]) :
    producesBytes i = false := by
  simp only [List.mem_cons, List.not_mem_nil, or_false] at hi
  obtain rfl | rfl | rfl | rfl := hi <;> rfl

/-- Settles O46: what the two ends of a command write, and which commands reach the table. -/
theorem writeSetsOfAllCommands : Obligations.WriteSetsOfAllCommands := by
  refine ⟨fun i s t hexec => ?_, fun w u s hd => issue_of_decode_error hd s⟩
  have hend := exec_ends hexec
  obtain ⟨hsrclen, hexp, hsrc, hhost, hreads, hdraws⟩ := hend.frame
  obtain ⟨hdone, hill⟩ := hend.done_not_ill
  obtain ⟨htable, htv⟩ := hend.table
  have kept (h : s.tableAt i t.status.phase = s) : t.table = s.table ∧ t.tv = s.tv := by
    rw [htable, htv, h]; exact ⟨rfl, rfl⟩
  refine ⟨hsrclen, hexp, fun a => by rw [hsrc], hsrc, hhost, hreads, hdraws, hdone, hill, hend.h_of_ne_hdrDec,
    hend.h_of_err, hend.crcacc, fun hi => ?_, fun hi => kept (State.tableAt_of_no_guard hi _ s), ?_, ?_, fun hs => ?_⟩
  · have hdst := hend.dst_of_not_producesBytes (producesBytes_eq_false_of_mem hi)
    exact ⟨hdst, by rw [State.dstlen, hdst, State.dstlen]⟩
  · rintro rfl hp
    exact kept (if_pos hp)
  · rintro rfl hp
    exact kept (if_pos hp)
  · rw [htable, htv]
    exact ⟨State.tableAt_tv hs i _, fun hok => State.tableAt_table hs hok i _⟩

end Sys2Proof.Machine
end

section
/-! What a command does depends on its operands alone. The state `u` is given the operands of `s` (`State.graft`);
every operation of a running command commutes with that, so the command ends in `u` as it ends in `s`. -/

namespace Sys2Proof.Machine

/-- A range read sees the cells of its range alone. -/
theorem Memory.readRange_congr {m m2 : Memory} {a n : Nat}
    (h : ∀ x, a ≤ x → x < a + n → Memory.read m2 x = Memory.read m x) :
    Memory.readRange m2 a n = Memory.readRange m a n := by
  induction n generalizing a with
  | zero => rfl
  | succ n ih =>
    rw [Memory.readRange, Memory.readRange, h a (by omega) (by omega), ih fun x h1 h2 => h x (by omega) (by omega)]

/-- `f` applied to the next state, if there is one. -/
def Outcome.mapNext (f : State → State) : Outcome → Outcome
  | .next t => .next (f t)
  | .fault r => .fault r
  | .refused r => .refused r

@[simp] theorem Outcome.mapNext_next (f : State → State) (t : State) : Outcome.mapNext f (.next t) = .next (f t) := rfl
@[simp] theorem Outcome.mapNext_fault (f : State → State) (r : Fault) : Outcome.mapNext f (.fault r) = .fault r := rfl

/-- The state `u` with the registers, the table and the sequencer that a running command works on taken from `s`. -/
def State.graft (u s : State) : State :=
  { u with srclen := s.srclen, exp := s.exp, h := s.h, table := s.table, tv := s.tv, seq := s.seq }

/-- What the end `t` of the command `i` leaves in the state `u`. -/
def State.graftEnd (i : Instr) (u t : State) : State :=
  { u.graft t with
    status := t.status
    dst := if producesBytes i then t.dst else u.dst
    crcacc := if i = .crcSum then t.crcacc else u.crcacc }

section
variable (u s : State) (i : Instr)

@[simp] theorem State.graft_enter (p : Phase) : (u.graft s).enter p = u.graft (s.enter p) := rfl
@[simp] theorem State.graft_latchHeader (h : Header) : (u.graft s).latchHeader h = u.graft (s.latchHeader h) := rfl
@[simp] theorem State.graft_stage (bytes : List Byte) : (u.graft s).stage bytes = u.graft (s.stage bytes) := rfl
@[simp] theorem State.graft_runCrc (bytes : List Byte) : (u.graft s).runCrc bytes = u.graft (s.runCrc bytes) := rfl
@[simp] theorem State.graft_ensureTable : (u.graft s).ensureTable = u.graft s.ensureTable := by
  cases h : s.tv <;> simp [State.ensureTable, State.graft, State.buildTable, h]
@[simp] theorem State.graft_seq : (u.graft s).seq = s.seq := rfl
@[simp] theorem State.graft_srclen : (u.graft s).srclen = s.srclen := rfl
@[simp] theorem State.graft_memRead (a n : Nat) : (u.graft s).memRead a n = u.memRead a n := rfl
@[simp] theorem State.graft_sourceBytes : (u.graft s).sourceBytes = u.memRead 0 s.srclen.toNat := rfl

/-! ### Every shared end of a command commutes with the graft -/

theorem State.graft_raise (hi : i ≠ .crcSum) (e : ErrCode) : (u.graft s).raise i e = u.graftEnd i (s.raise i e) := by
  cases h : producesBytes i <;> simp [State.raise, State.graft, State.graftEnd, h, hi]

theorem State.graft_putDst_complete (hp : producesBytes i = true) (hi : i ≠ .crcSum) (bytes : List Byte) :
    ((u.graft s).putDst bytes).complete = u.graftEnd i (s.putDst bytes).complete := by
  simp [State.complete, State.putDst, State.graft, State.graftEnd, hp, hi]

theorem State.graft_finishCompress (hp : producesBytes i = true) (hi : i ≠ .crcSum)
    (r : Except AdapterKind (List Byte)) :
    (u.graft s).finishCompress i r = u.graftEnd i (s.finishCompress i r) := by
  cases r with
  | error k => exact State.graft_raise u s i hi _
  | ok bytes => exact State.graft_putDst_complete u s i hp hi bytes

theorem State.graft_finishDecompress (hp : producesBytes i = true) (hi : i ≠ .crcSum)
    (r : Except AdapterKind (List Byte)) :
    (u.graft s).finishDecompress i r = u.graftEnd i (s.finishDecompress i r) := by
  cases r with
  | error k => exact State.graft_raise u s i hi _
  | ok bytes => exact State.graft_putDst_complete u s i hp hi bytes

theorem State.graft_packCompressed (bytes : List Byte) :
    (u.graft s).packCompressed bytes = u.graftEnd .pkRepack (s.packCompressed bytes) := by
  simp only [State.packCompressed, State.graft_stage, State.graft_enter, State.graft_ensureTable, State.graft_runCrc,
    State.graft_seq, State.graft_srclen, State.graft_latchHeader]
  split
  · exact State.graft_raise u _ .pkRepack (by decide) _
  · exact State.graft_putDst_complete u _ .pkRepack rfl (by decide) _

theorem State.graft_finishRepack (r : Except AdapterKind (List Byte)) :
    (u.graft s).finishRepack r = u.graftEnd .pkRepack (s.finishRepack r) := by
  cases r with
  | error k => exact State.graft_raise u s .pkRepack (by decide) _
  | ok bytes => exact State.graft_packCompressed u s bytes

theorem State.graft_unpackPayload (P : Params) (chk : Bool) (c : List Byte) :
    (u.graft s).unpackPayload P chk c = u.graftEnd (.pkUnpack chk) (s.unpackPayload P chk c) :=
  State.graft_finishDecompress u (s.enter .decomp) (.pkUnpack chk) rfl (by simp) _

theorem State.graft_unpackChecked (P : Params) (chk : Bool) (c : List Byte) :
    (u.graft s).unpackChecked P chk c = u.graftEnd (.pkUnpack chk) (s.unpackChecked P chk c) := by
  cases chk with
  | false => exact State.graft_unpackPayload u s P false c
  | true =>
    simp only [State.unpackChecked, if_true, State.graft_enter, State.graft_ensureTable, State.graft_runCrc,
      State.graft_seq]
    split
    · exact State.graft_raise u _ (.pkUnpack true) (by decide) _
    · exact State.graft_unpackPayload u _ P true c

end

/-- `s` and `u` agree on what a command can read. -/
structure State.SameOperands (s u : State) : Prop where
  srclen : u.srclen = s.srclen
  exp : u.exp = s.exp
  h : u.h = s.h
  table : u.table = s.table
  tv : u.tv = s.tv
  src : ∀ a, a < s.srclen.toNat → Memory.read u.src a = Memory.read s.src a

section
variable {s u : State} (hsame : s.SameOperands u)
include hsame

theorem State.SameOperands.begin_eq (p : Phase) : u.begin p = u.graft (s.begin p) := by
  obtain ⟨hsrclen, hexp, hh, htable, htv, -⟩ := hsame
  simp [State.begin, State.graft, ← hsrclen, ← hexp, ← hh, ← htable, ← htv]

theorem State.SameOperands.memRead {a n : Nat} (hle : a + n ≤ s.srclen.toNat) : u.memRead a n = s.memRead a n :=
  Memory.readRange_congr fun x _ hx => hsame.src x (by omega)

theorem State.SameOperands.memRead_srclen : u.memRead 0 s.srclen.toNat = s.sourceBytes :=
  hsame.memRead (by omega)

theorem execCrcTbl_of_sameOperands : execCrcTbl u = Outcome.mapNext (u.graftEnd .crcTbl) (execCrcTbl s) := by
  rw [execCrcTbl, hsame.begin_eq]
  rfl

theorem execCrcSum_of_sameOperands : execCrcSum u = Outcome.mapNext (u.graftEnd .crcSum) (execCrcSum s) := by
  simp only [execCrcSum, hsame.begin_eq, State.graft_ensureTable, State.graft_enter,
    State.graft_sourceBytes, State.enter_srclen, State.ensureTable_srclen, State.begin_srclen, hsame.memRead_srclen,
    State.enter_sourceBytes, State.ensureTable_sourceBytes, State.begin_sourceBytes]
  cases s.sourceBytes <;> rfl

theorem execDcaComp_of_sameOperands : execDcaComp u = Outcome.mapNext (u.graftEnd .dcaComp) (execDcaComp s) := by
  simp only [execDcaComp, dcaCompWith, hsame.begin_eq, State.graft_sourceBytes, State.begin_srclen,
    hsame.memRead_srclen, State.begin_sourceBytes]
  cases s.sourceBytes with
  | error a => rfl
  | ok input => exact congrArg Host.Outcome.next (State.graft_finishCompress u _ .dcaComp rfl (by decide) _)

theorem execDcaDecomp_of_sameOperands :
    execDcaDecomp u = Outcome.mapNext (u.graftEnd .dcaDecomp) (execDcaDecomp s) := by
  simp only [execDcaDecomp, dcaDecompWith, hsame.begin_eq, State.graft_sourceBytes, State.begin_srclen,
    hsame.memRead_srclen, State.begin_sourceBytes]
  cases s.sourceBytes with
  | error a => rfl
  | ok input => exact congrArg Host.Outcome.next (State.graft_finishDecompress u _ .dcaDecomp rfl (by decide) _)

theorem execHdrEnc_of_sameOperands : execHdrEnc u = Outcome.mapNext (u.graftEnd .hdrEnc) (execHdrEnc s) := by
  rw [execHdrEnc, hsame.begin_eq, hsame.h]
  rfl

theorem execHdrDec_of_sameOperands : execHdrDec u = Outcome.mapNext (u.graftEnd .hdrDec) (execHdrDec s) := by
  simp only [execHdrDec, hsame.begin_eq, State.graft_srclen, State.begin_srclen, State.graft_memRead,
    State.begin_memRead]
  by_cases hlen : s.srclen.toNat < hdrSize
  · simp only [hlen, if_true]
    rfl
  · simp only [hlen, if_false, hsame.memRead (a := 0) (n := hdrSize) (by omega)]
    cases s.memRead 0 hdrSize <;> rfl

theorem execPkRepack_of_sameOperands :
    execPkRepack u = Outcome.mapNext (u.graftEnd .pkRepack) (execPkRepack s) := by
  simp only [execPkRepack, pkRepackWith, hsame.begin_eq, State.graft_sourceBytes, State.begin_srclen,
    hsame.memRead_srclen, State.begin_sourceBytes]
  cases s.sourceBytes with
  | error a => rfl
  | ok payload => exact congrArg Host.Outcome.next (State.graft_finishRepack u _ _)

theorem execPkUnpack_of_sameOperands (chk : Bool) :
    execPkUnpack chk u = Outcome.mapNext (u.graftEnd (.pkUnpack chk)) (execPkUnpack chk s) := by
  simp only [execPkUnpack, pkUnpackWith, hsame.begin_eq, State.graft_srclen, State.begin_srclen,
    State.graft_memRead, State.begin_memRead]
  by_cases hlen : s.srclen.toNat < hdrSize
  · simp only [hlen, if_true]
    rfl
  simp only [hlen, if_false, hsame.memRead (a := 0) (n := hdrSize) (by omega)]
  cases s.memRead 0 hdrSize with
  | error a => rfl
  | ok hb =>
    simp only [State.graft_latchHeader, State.graft_enter, State.graft_seq, State.graft_srclen, State.graft_memRead,
      State.enter_srclen, State.latchHeader_srclen, State.begin_srclen, State.enter_memRead,
      State.latchHeader_memRead, State.begin_memRead, State.enter_seq, State.latchHeader_seq]
    by_cases hver : (decodeHeader hb).version = versionTag
    case neg =>
      simp only [ne_eq, hver, not_false_eq_true, if_true]
      rfl
    by_cases hrange : s.srclen.toNat < hdrSize + (decodeHeader hb).compressedSize.toNat
    · simp only [ne_eq, hver, not_true_eq_false, if_false, hrange, if_true]
      rfl
    simp only [ne_eq, hver, not_true_eq_false, hrange, if_false, hsame.memRead (Nat.le_of_not_lt hrange)]
    cases s.memRead hdrSize (decodeHeader hb).compressedSize.toNat with
    | error a => rfl
    | ok c => exact congrArg Host.Outcome.next (State.graft_unpackChecked u _ config chk c)

theorem execPkValid_of_sameOperands : execPkValid u = Outcome.mapNext (u.graftEnd .pkValid) (execPkValid s) := by
  simp only [execPkValid, hsame.begin_eq, State.graft_srclen, State.begin_srclen, State.graft_memRead,
    State.begin_memRead]
  by_cases hlen : s.srclen.toNat < hdrSize
  · simp only [hlen, if_true]
    rfl
  have hfour : 0 + 4 ≤ s.srclen.toNat := le_trans (by decide) (Nat.le_of_not_lt hlen)
  simp only [hlen, if_false, hsame.memRead hfour]
  cases s.memRead 0 4 with
  | error a => rfl
  | ok vb =>
    simp only [State.graft_latchHeader, State.graft_enter, State.graft_seq, State.enter_seq, State.latchHeader_seq]
    by_cases hver : unle32 vb = versionTag
    · simp only [ne_eq, hver, not_true_eq_false, if_false]
      rfl
    · simp only [ne_eq, hver, not_false_eq_true, if_true]
      rfl

/-- What a command does to a state with the same operands is what it does to `s`, put into that state. -/
theorem exec_of_sameOperands (i : Instr) : exec i u = Outcome.mapNext (u.graftEnd i) (exec i s) := by
  cases i with
  | crcTbl => exact execCrcTbl_of_sameOperands hsame
  | crcSum => exact execCrcSum_of_sameOperands hsame
  | dcaComp => exact execDcaComp_of_sameOperands hsame
  | dcaDecomp => exact execDcaDecomp_of_sameOperands hsame
  | hdrEnc => exact execHdrEnc_of_sameOperands hsame
  | hdrDec => exact execHdrDec_of_sameOperands hsame
  | pkRepack => exact execPkRepack_of_sameOperands hsame
  | pkUnpack chk => exact execPkUnpack_of_sameOperands hsame chk
  | pkValid => exact execPkValid_of_sameOperands hsame

end

/-- Settles O49: `graftEnd` takes every field the statement names from the end in `s`. -/
theorem commandsDependOnTheirOperandsOnly : Obligations.CommandsDependOnTheirOperandsOnly := by
  intro i s u hsrclen hexp hh htable htv hsrc
  have hexec := exec_of_sameOperands ⟨hsrclen, hexp, hh, htable, htv, hsrc⟩ i
  refine ⟨fun t ht => ⟨u.graftEnd i t, ?_, rfl, rfl, rfl, rfl, fun hp => if_pos hp, fun hi => if_pos hi⟩,
    fun f hf => ?_⟩
  · rw [hexec, ht, Outcome.mapNext_next]
  · rw [hexec, hf, Outcome.mapNext_fault]

end Sys2Proof.Machine
end

section
/-! The host's accesses to the buffers, and the register accesses that the block refuses (20_memory.md R61, R62,
R68). -/

namespace Sys2Proof.Machine

/-! ### Refused register accesses (20_memory.md R68) -/

theorem wholeWord_eq_false {width : Nat} {off : BitVec 12} (h : width ≠ 32 ∨ off.toNat % 4 ≠ 0) :
    wholeWord width off = false := by
  simpa [wholeWord, ← imp_iff_not_or] using h

theorem hostWriteReg_of_not_wholeWord {width : Nat} {off : BitVec 12} (h : wholeWord width off = false) (v : Word)
    (s : State) : hostWriteReg width off v s = .next s := by
  simp [hostWriteReg, h]

theorem State.hostReadReg_of_not_wholeWord {width : Nat} {off : BitVec 12} (h : wholeWord width off = false)
    (s : State) : s.hostReadReg width off = s.replyFreeWord := by
  simp [State.hostReadReg, h]

/-- Settles O13: an access that is not of a whole word takes the refusing branch, whatever register it names. -/
theorem otherWidthsAndOffsetsAreIgnored : Obligations.OtherWidthsAndOffsetsAreIgnored := by
  intro s width off rest hrefused
  have hw := wholeWord_eq_false hrefused
  refine ⟨fun v hs => ?_, fun hs => ?_⟩
  · rw [step_of_host_cons hs, access, hostWriteReg_of_not_wholeWord hw]
  · rw [step_of_host_cons hs, access, State.hostReadReg_of_not_wholeWord hw]
    rfl

/-! ### SRC cells (20_memory.md R61) -/

theorem Memory.read_write (m : Memory) (a x : Nat) (b : Byte) :
    Memory.read (Memory.write m a b) x = if x = a then some b else Memory.read m x := by
  split
  · next hx => rw [hx, Memory.read_write_same]
  · next hx => exact Memory.read_write_other m a x b hx

theorem State.hostWriteSrc_eq (index : Nat) (b : Byte) (s : State) :
    s.hostWriteSrc index b = { s with src := (s.hostWriteSrc index b).src } := by
  unfold State.hostWriteSrc
  split <;> rfl

theorem State.read_hostWriteSrc (index : Nat) (b : Byte) (s : State) (a : Nat) :
    Memory.read (s.hostWriteSrc index b).src a =
      if a = index ∧ index < config.bufCap then some b else Memory.read s.src a := by
  by_cases hlt : index < config.bufCap
  · simp [State.hostWriteSrc, hlt, Memory.read_write]
  · simp [State.hostWriteSrc, hlt]

theorem State.hostReadSrc_of_written {s : State} {index : Nat} {b : Byte} (hlt : index < config.bufCap)
    (hb : Memory.read s.src index = some b) : s.hostReadSrc index = s.reply (.byte b) := by
  simp [State.hostReadSrc, hlt, hb]

theorem State.hostReadSrc_of_unwritten {s : State} {index : Nat}
    (h : Memory.read s.src index = none ∨ config.bufCap ≤ index) : s.hostReadSrc index = s.replyFreeByte := by
  obtain hnone | hle := h
  · simp [State.hostReadSrc, hnone]
  · simp [State.hostReadSrc, Nat.not_lt.mpr hle]

/-- Settles O14: the capacity decides a write; the capacity and the cell decide a read. -/
theorem sourceCellAccesses : Obligations.SourceCellAccesses := by
  intro s index rest
  refine ⟨fun b hs => ⟨_, step_of_host_cons hs, State.hostWriteSrc_eq .., State.read_hostWriteSrc _ _ _⟩,
    fun hs => ⟨fun b hlt hb => ?_, fun hfree => ?_⟩⟩
  · rw [step_of_host_cons hs, access, State.hostReadSrc_of_written (s := { s with host := rest }) hlt hb]
    rfl
  · rw [step_of_host_cons hs, access, State.hostReadSrc_of_unwritten (s := { s with host := rest }) hfree]
    rfl

/-! ### DST cells (20_memory.md R62) -/

theorem State.hostReadDst_of_lt {s : State} {index : Nat} (hlt : index < s.dst.length) :
    s.hostReadDst index = s.reply (.byte s.dst[index]) := by
  simp [State.hostReadDst, hlt]

theorem State.hostReadDst_of_le {s : State} {index : Nat} (hle : s.dst.length ≤ index) :
    s.hostReadDst index = s.replyFreeByte := by
  simp [State.hostReadDst, hle]

/-- Settles O15: a write has no effect, and the length of DST decides a read. -/
theorem destinationCellAccesses : Obligations.DestinationCellAccesses := by
  intro s index rest
  refine ⟨fun b hs => step_of_host_cons hs, fun hs => ⟨fun hlt => ?_, fun hle => ?_⟩⟩
  · rw [step_of_host_cons hs, access, State.hostReadDst_of_lt (s := { s with host := rest }) hlt]
    rfl
  · rw [step_of_host_cons hs, access, State.hostReadDst_of_le (s := { s with host := rest }) hle]
    rfl

end Sys2Proof.Machine
end

section
/-! Command words: the fields of a word and the word of the fields, and the decoder as the inverse of `Instr.fields`
(30_encoding.md R90 to R93). -/

namespace Sys2Proof

/-! ### The fields lose no bit (30_encoding.md R91) -/

@[simp] theorem Cmd32.ofWord_toWord (f : Cmd32) : Cmd32.ofWord f.toWord = f := by
  obtain ⟨rsv, chk, opc⟩ := f
  simp only [Cmd32.ofWord, Cmd32.toWord, Cmd32.mk.injEq, ← BitVec.toNat_inj, BitVec.extractLsb'_toNat,
    Machine.append_toNat, Nat.shiftRight_eq_div_pow]
  omega

@[simp] theorem Cmd32.toWord_ofWord (w : Word) : (Cmd32.ofWord w).toWord = w := by
  have hw := w.isLt
  simp only [Cmd32.ofWord, Cmd32.toWord, ← BitVec.toNat_inj, Machine.append_toNat, BitVec.extractLsb'_toNat,
    Nat.shiftRight_eq_div_pow]
  omega

theorem Cmd32.toWord_inj {f g : Cmd32} : f.toWord = g.toWord ↔ f = g :=
  (Function.LeftInverse.injective Cmd32.ofWord_toWord).eq_iff

theorem Cmd32.ofWord_eq_iff {w : Word} {f : Cmd32} : Cmd32.ofWord w = f ↔ w = f.toWord := by
  rw [← Cmd32.toWord_inj, Cmd32.toWord_ofWord]

/-- `CHK` is a field of one bit. -/
theorem extract_bit_eq_ofBool (w : Word) (i : Nat) : w.extractLsb' i 1 = BitVec.ofBool (w.getLsbD i) := by
  ext j hj
  obtain rfl : j = 0 := by omega
  simp

/-! ### The opcode map (30_encoding.md R92) -/

theorem Instr.fields_wf (i : Instr) : i.fields.wf = true := by
  cases i with
  | pkUnpack chk => exact Laws.FieldsWellFormed.pkUnpack chk
  | _ => decide

/-- The opcode map gives an opcode the command whose word has it, and `CHK` reaches `PK.UNPACK` alone. -/
theorem Instr.fields_of_ofOpcode {opc : Byte} {chk : Bool} {i : Instr} (h : Instr.ofOpcode opc chk = some i) :
    i.fields = ⟨0, if opc = 0x31#8 then BitVec.ofBool chk else 0, opc⟩ := by
  unfold Instr.ofOpcode at h
  split_ifs at h <;> cases h <;> subst opc <;> rfl

theorem Instr.ofOpcode_fields (i : Instr) : Instr.ofOpcode i.fields.opc (i.fields.chk == 1) = some i := by
  cases i with
  | pkUnpack chk => cases chk <;> rfl
  | _ => rfl

theorem ofBool_beq_one (b : BitVec 1) : BitVec.ofBool (b == 1) = b := by
  revert b
  decide

/-- Fields are those of the command that the map gives for their opcode, when nothing else is set in them. -/
theorem Instr.fields_eq_of_ofOpcode {f : Cmd32} {i : Instr} (hrsv : f.rsv = 0)
    (hi : Instr.ofOpcode f.opc (f.chk == 1) = some i) (hchk : f.chk = 0 ∨ f.opc = 0x31#8) : i.fields = f := by
  obtain ⟨rsv, chk, opc⟩ := f
  obtain rfl : rsv = 0 := hrsv
  rw [Instr.fields_of_ofOpcode hi, ofBool_beq_one]
  by_cases hopc : opc = 0x31#8
  · rw [if_pos hopc]
  · rw [if_neg hopc, show chk = 0 from hchk.resolve_right hopc]

theorem Instr.ofOpcode_isSome {opc : Byte} (chk : Bool)
    (h : opc ∈ [0x01#8, 0x02#8, 0x10#8, 0x11#8, 0x20#8, 0x21#8, 0x30#8, 0x31#8, 0x32#8]) :
    ∃ i, Instr.ofOpcode opc chk = some i := by
  simp only [List.mem_cons, List.not_mem_nil, or_false] at h
  rcases h with rfl | rfl | rfl | rfl | rfl | rfl | rfl | rfl | rfl <;> exact ⟨_, rfl⟩

theorem Cmd32.wf_iff {f : Cmd32} :
    f.wf = true ↔ f.rsv = 0 ∧ f.opc ∈ [0x01#8, 0x02#8, 0x10#8, 0x11#8, 0x20#8, 0x21#8, 0x30#8, 0x31#8, 0x32#8] ∧
      (f.chk = 0 ∨ f.opc = 0x31#8) := by
  simp only [Cmd32.wf, Cmd32.rsvZero, Cmd32.opcDefined, Cmd32.chkAllowed, Bool.and_eq_true, Bool.or_eq_true,
    beq_iff_eq, List.contains_iff_mem, and_assoc]

/-- Well-formed fields are those of a command (30_encoding.md R92: "Full command words"). -/
theorem Cmd32.wf_iff_exists_fields {f : Cmd32} : f.wf = true ↔ ∃ i : Instr, i.fields = f := by
  refine ⟨fun h => ?_, fun ⟨i, hi⟩ => hi ▸ i.fields_wf⟩
  obtain ⟨hrsv, hopc, hchk⟩ := Cmd32.wf_iff.mp h
  obtain ⟨i, hi⟩ := Instr.ofOpcode_isSome (f.chk == 1) hopc
  exact ⟨i, Instr.fields_eq_of_ofOpcode hrsv hi hchk⟩

/-! ### The decoder (30_encoding.md R93) -/

/-- The decoder answers the command whose fields the word has, and no other. -/
theorem decode_eq_ok_iff {w : Word} {i : Instr} : decode w = .ok i ↔ Cmd32.ofWord w = i.fields := by
  simp only [decode]
  generalize Cmd32.ofWord w = f
  constructor
  · intro h
    by_cases hrsv : f.rsv ≠ 0
    · rw [if_pos hrsv] at h
      cases h
    · rw [if_neg hrsv] at h
      cases hj : Instr.ofOpcode f.opc (f.chk == 1) with
      | none => rw [hj] at h; cases h
      | some j =>
        simp only [hj] at h
        split_ifs at h with hchk
        cases h
        exact (Instr.fields_eq_of_ofOpcode (not_not.mp hrsv) hj (by tauto)).symm
  · rintro rfl
    obtain ⟨hrsv, -, hchk⟩ := Cmd32.wf_iff.mp i.fields_wf
    rw [if_neg (not_not.mpr hrsv), Instr.ofOpcode_fields]
    exact if_neg (by tauto)

theorem decode_eq_ok_iff_encode {w : Word} {i : Instr} : decode w = .ok i ↔ w = encode i := by
  rw [decode_eq_ok_iff, Cmd32.ofWord_eq_iff, encode]

theorem decode_encode (i : Instr) : decode (encode i) = .ok i :=
  decode_eq_ok_iff_encode.mpr rfl

theorem exists_decode_eq_ok_iff {w : Word} : (∃ i, decode w = .ok i) ↔ (Cmd32.ofWord w).wf = true := by
  rw [Cmd32.wf_iff_exists_fields]
  exact exists_congr fun i => decode_eq_ok_iff.trans eq_comm

theorem exists_decode_eq_error_iff {w : Word} : (∃ u, decode w = .error u) ↔ ¬ (Cmd32.ofWord w).wf = true := by
  rw [← exists_decode_eq_ok_iff]
  cases decode w <;> simp

/-- Settles O1: the decoder answers `i` for the word of `i` and for no other word, and every command is well formed. -/
theorem decodeInvertsEncode : Obligations.DecodeInvertsEncode :=
  ⟨fun i _ => decode_encode i, fun _ i h => ⟨i.fields_wf, (decode_eq_ok_iff_encode.mp h).symm⟩⟩

/-- Settles O3: splitting and joining are inverse, and well-formed fields are those of a command. -/
theorem decoderAcceptsExactlyWellFormedFields : Obligations.DecoderAcceptsExactlyWellFormedFields :=
  ⟨Cmd32.ofWord_toWord, Cmd32.toWord_ofWord, fun _ => exists_decode_eq_ok_iff⟩

/-- Settles O4: the five defined words are the encodings of their commands; the decoder computes the reason for each
of the three others. -/
theorem listedWordsDecode : Obligations.ListedWordsDecode :=
  ⟨decode_encode .crcTbl, decode_encode .dcaDecomp, decode_encode .hdrEnc, decode_encode (.pkUnpack false),
    decode_encode (.pkUnpack true), by decide, by decide, by decide⟩

/-! ### The opcode map on all words (30_encoding.md R93) -/

/-- A word is decoded to `i` when its three fields are those of `i`. -/
theorem decode_of_fields {w : Word} {i : Instr} (hrsv : w.extractLsb' 9 23 = i.fields.rsv)
    (hchk : BitVec.ofBool (w.getLsbD 8) = i.fields.chk) (hopc : w.extractLsb' 0 8 = i.fields.opc) :
    decode w = .ok i := by
  rw [decode_eq_ok_iff, Cmd32.ofWord, hrsv, extract_bit_eq_ofBool, hchk, hopc]

theorem decode_eq_ok_iff_and_allOnes {w : Word} {i : Instr} :
    decode w = .ok i ↔ w &&& 0xFFFFFFFF#32 = encode i := by
  rw [decode_eq_ok_iff_encode, show 0xFFFFFFFF#32 = BitVec.allOnes 32 from rfl, BitVec.and_allOnes]

/-- The mask of `PK.UNPACK` clears `CHK` and keeps the two other fields. -/
theorem Cmd32.toWord_and_chkMask (f : Cmd32) : f.toWord &&& 0xFFFFFEFF#32 = Cmd32.toWord ⟨f.rsv, 0, f.opc⟩ := by
  have hmask : 0xFFFFFEFF#32 = BitVec.allOnes 23 ++ 0#1 ++ BitVec.allOnes 8 := by decide
  rw [hmask, Cmd32.toWord, BitVec.and_append, BitVec.and_append, BitVec.and_allOnes, BitVec.and_zero,
    BitVec.and_allOnes]
  rfl

theorem exists_decode_eq_pkUnpack_iff {w : Word} :
    (∃ chk, decode w = .ok (.pkUnpack chk)) ↔ w &&& 0xFFFFFEFF#32 = 0x00000031#32 := by
  have hword : 0x00000031#32 = Cmd32.toWord ⟨0, 0, 0x31#8⟩ := by decide
  rw [← Cmd32.toWord_ofWord w, Cmd32.toWord_and_chkMask, hword, Cmd32.toWord_inj]
  simp only [decode_eq_ok_iff, Cmd32.toWord_ofWord, Instr.fields]
  generalize Cmd32.ofWord w = f
  obtain ⟨rsv, chk, opc⟩ := f
  constructor
  · rintro ⟨b, h⟩
    cases h
    rfl
  · intro h
    cases h
    exact ⟨chk == 1, by rw [ofBool_beq_one]; rfl⟩

/-- Settles O2: the undefined words are those whose fields are not well formed, and each command has the one word of its
fields, so that its mask is all ones; `PK.UNPACK` has one for each `CHK`. -/
theorem decodingFollowsTheOpcodeMap : Obligations.DecodingFollowsTheOpcodeMap := by
  intro w
  have undefined (h : ¬ (Cmd32.ofWord w).wf = true) : ∃ u, decode w = .error u := exists_decode_eq_error_iff.mpr h
  refine ⟨fun hrsv => undefined fun h => hrsv (Cmd32.wf_iff.mp h).1, fun hrsv hopc => decode_of_fields hrsv rfl hopc,
    fun hrsv hbit => ?_, fun hopc => undefined fun h => hopc (Cmd32.wf_iff.mp h).2.1, fun hbit hopc => ?_,
    decode_eq_ok_iff_and_allOnes, decode_eq_ok_iff_and_allOnes, decode_eq_ok_iff_and_allOnes,
    decode_eq_ok_iff_and_allOnes, decode_eq_ok_iff_and_allOnes, decode_eq_ok_iff_and_allOnes,
    decode_eq_ok_iff_and_allOnes, exists_decode_eq_pkUnpack_iff, decode_eq_ok_iff_and_allOnes⟩
  · have hchk : BitVec.ofBool (w.getLsbD 8) = 0 := by rw [hbit]; rfl
    have defined (i : Instr) (hr : 0 = i.fields.rsv) (hc : 0 = i.fields.chk) :
        w.extractLsb' 0 8 = i.fields.opc → decode w = .ok i := decode_of_fields (hrsv.trans hr) (hchk.trans hc)
    exact ⟨defined .crcTbl rfl rfl, defined .crcSum rfl rfl, defined .dcaComp rfl rfl, defined .dcaDecomp rfl rfl,
      defined .hdrEnc rfl rfl, defined .hdrDec rfl rfl, defined .pkRepack rfl rfl, defined .pkValid rfl rfl⟩
  · refine undefined fun h => ?_
    obtain ⟨-, -, hchk⟩ := Cmd32.wf_iff.mp h
    have hchk : w.extractLsb' 8 1 = 0 := hchk.resolve_right hopc
    rw [extract_bit_eq_ofBool, hbit] at hchk
    exact absurd hchk (by decide)

end Sys2Proof
end

section
/-! Host lines on the queue: a refused command word, and the lines `WS` and `RD` run access by access
(30_encoding.md R94, R101). -/

namespace Sys2Proof.Machine

/-- Settles O6: an undefined word takes the refusing branch, and its `STATUS` word depends on `TV` alone. -/
theorem refusedWordChangesOnlyStatus : Obligations.RefusedWordChangesOnlyStatus := by
  intro s w u rest hs hd
  refine ⟨State.refuse { s with host := rest }, ?_, rfl, statusBits_refusal s.tv⟩
  rw [step_of_host_cons hs, access_commandAccess, issue_of_decode_error hd]

/-! ### Runs of the machine -/

theorem core_run_succ {s t : State} (n : Nat) (h : step s = .next t) :
    Sys2Proof.core.run (n + 1) s = Sys2Proof.core.run n t := by
  have hcore : Sys2Proof.core.step s = .next t := h
  simp only [Host.Core.run, hcore]

/-! ### The line `WS` (20_memory.md R61) -/

/-- The cells after the bytes are written from index `a` on. -/
def Memory.writeRange (m : Memory) : Nat → List Byte → Memory
  | _, [] => m
  | a, b :: bs => Memory.writeRange (Memory.write m a b) (a + 1) bs

theorem Memory.read_writeRange_outside (m : Memory) {a j : Nat} {bytes : List Byte}
    (h : j < a ∨ a + bytes.length ≤ j) : Memory.read (m.writeRange a bytes) j = Memory.read m j := by
  induction bytes generalizing m a with
  | nil => rfl
  | cons b bs ih =>
    rw [List.length_cons] at h
    rw [Memory.writeRange, ih _ (by omega), Memory.read_write_other m a j b (by omega)]

theorem Memory.read_writeRange_inside (m : Memory) (a : Nat) (bytes : List Byte) (k : Nat) (hk : k < bytes.length) :
    Memory.read (m.writeRange a bytes) (a + k) = some bytes[k] := by
  induction bytes generalizing m a k with
  | nil => exact absurd hk (Nat.not_lt_zero k)
  | cons b bs ih =>
    rw [Memory.writeRange]
    cases k with
    | zero => rw [Memory.read_writeRange_outside _ (.inl (by omega))]; exact Memory.read_write_same m a b
    | succ k =>
      rw [show a + (k + 1) = a + 1 + k by omega, ih _ _ k (Nat.lt_of_succ_lt_succ hk)]
      rfl

/-- The accesses of `WS a, bytes` write the range cell by cell and touch nothing else (30_encoding.md R101). -/
theorem core_run_writeSrcBytes {bytes : List Byte} {s : State} {a : Nat} {rest : List HostAccess}
    (hfit : a + bytes.length ≤ config.bufCap) (hs : s.host = writeSrcBytes a bytes ++ rest) :
    Sys2Proof.core.run bytes.length s = .next { s with host := rest, src := s.src.writeRange a bytes } := by
  induction bytes generalizing s a with
  | nil =>
    obtain rfl : s.host = rest := hs
    rfl
  | cons b bs ih =>
    rw [List.length_cons] at hfit
    have hstep : step s =
        .next { s with host := writeSrcBytes (a + 1) bs ++ rest, src := Memory.write s.src a b } := by
      rw [step_of_host_cons hs, access, State.hostWriteSrc, if_pos (by omega)]
      rfl
    rw [List.length_cons, core_run_succ _ hstep, ih (by omega) rfl]
    rfl

/-- Settles O16: the run writes the range, and a range write is read back inside it and unseen outside. -/
theorem loadedSourceIsHeld : Obligations.LoadedSourceIsHeld := fun _ s a _ hfit hs =>
  ⟨_, core_run_writeSrcBytes hfit hs, rfl, s.src.read_writeRange_inside a _,
    fun _ hj => s.src.read_writeRange_outside hj⟩

/-! ### The line `RD` (20_memory.md R62) -/

/-- Settles O17: by induction on the count, each access answers the next byte of DST. -/
theorem resultIsReadOut : Obligations.ResultIsReadOut := by
  intro n
  induction n with
  | zero =>
    intro s a rest _ hs
    obtain rfl : s.host = rest := hs
    rfl
  | succ n ih =>
    intro s a rest hle hs
    have hlt : a < s.dst.length := by omega
    have hstep : step s =
        .next { s with host := readDstBytes (a + 1) n ++ rest, reads := .byte s.dst[a] :: s.reads } :=
      (step_of_host_cons hs).trans (congrArg Host.Outcome.next
        (State.hostReadDst_of_lt (s := { s with host := readDstBytes (a + 1) n ++ rest }) hlt))
    rw [core_run_succ n hstep, ih _ (a + 1) rest (by dsimp only; omega) rfl, List.drop_eq_getElem_cons hlt,
      List.take_succ_cons, List.map_cons, List.reverse_cons, List.append_assoc]
    rfl

end Sys2Proof.Machine
end

section
/-! A container as `PK.REPACK` leaves it in DST, and its fields read back (30_encoding.md R97, R98). -/

namespace Sys2Proof.Machine

/-! ### The header in front of a sequence (30_encoding.md R96) -/

/-- Field `k` of the header is read back out of the bytes that begin with it, whatever follows. -/
theorem headerField_encodeHeader_append (h : Header) (rest : List Byte) (k : Fin 8) :
    headerField (encodeHeader h ++ rest) k = h.get k := by
  fin_cases k <;> exact unle32_le32 _

/-! ### A successful `PK.REPACK` (43_container.md R179) -/

/-- The container of the compressed bytes `c`, with the checksum over the table that the guard leaves. -/
def State.container (s : State) (c : List Byte) : List Byte :=
  encodeHeader (packHeader s.srclen c.length (checksum s.ensureTable.table c)) ++ c ++
    zeros (paddingSize c.length).toNat

/-- A `PK.REPACK` that raises no error has compressed its source, and the container of the result is in DST. -/
theorem pkRepackWith_success {P : Params} {s t : State} (h : pkRepackWith P s = .next t)
    (herr : t.status.err = .none) :
    ∃ p c, s.Source p ∧ compress P p = .ok c ∧ ¬ paddingSize c.length < 0 ∧ t.dst = s.container c := by
  obtain ⟨p, hp, rfl⟩ := (pkRepackWith_next_iff P s t).mp h
  cases hc : compress P p with
  | error k =>
    rw [hc] at herr
    cases k <;> cases herr
  | ok c =>
    rw [hc] at herr
    have hend : (s.begin .comp).finishRepack (.ok c) = _ := s.packCompressed_setSeq _ c
    by_cases hpad : paddingSize c.length < 0
    · rw [hend, if_pos hpad] at herr
      cases herr
    · refine ⟨p, c, (s.sourceBytes_ok_iff p).mp hp, hc, hpad, ?_⟩
      rw [hend, if_neg hpad, State.ensureTable_srclen]
      rfl

/-- The container past its header. -/
theorem State.drop_container (s : State) (c : List Byte) :
    (s.container c).drop hdrSize = c ++ zeros (paddingSize c.length).toNat := by
  rw [State.container, List.append_assoc]
  exact List.drop_left' (encodeHeader_length _)

theorem State.headerField_container (s : State) (c : List Byte) (k : Fin 8) :
    headerField (s.container c) k = (packHeader s.srclen c.length (checksum s.ensureTable.table c)).get k := by
  rw [State.container, List.append_assoc]
  exact headerField_encodeHeader_append _ _ k

/-- Settles O37: DST is the container of what the core answers, so the payload, the padding and each header field are
read back out of it. -/
theorem containerLayout : Obligations.ContainerLayout := by
  intro P s t p _ hok hp h herr
  obtain ⟨p', c, hp', hc, hpad, hdst⟩ := pkRepackWith_success h herr
  obtain rfl : p' = p := hp'.2.unique hp.2 (hp'.1.trans hp.1.symm)
  obtain ⟨-, hdeflate⟩ := (compress_ok_iff P p' c).mp hc
  have hdrop := s.drop_container c
  have field (k : Fin 8) := s.headerField_container c k
  rw [s.checksum_ensureTable hok] at field
  rw [hdst]
  have hsize : 32 + c.length ≤ 524288 := by simp only [paddingSize, fileSize, hdrSize] at hpad; omega
  have hzeros : zeros (paddingSize c.length).toNat = List.replicate (524288 - 32 - c.length) 0#8 := by
    simp only [zeros, paddingSize, fileSize, hdrSize]
    congr 1
    omega
  rw [hzeros] at hdrop
  refine ⟨c, hdeflate, hsize, container_length hpad _, ?_, ?_, field 0, field 1, ?_, field 3, field 4, field 5,
    field 6, field 7⟩
  · exact (congrArg (List.take c.length) hdrop).trans List.take_left
  · rw [← List.drop_drop]
    exact (congrArg (List.drop c.length) hdrop).trans List.drop_left
  · have hfield : headerField (s.container c) 2 = BitVec.ofNat 32 c.length := field 2
    rw [hfield, BitVec.toNat_ofNat]
    omega

end Sys2Proof.Machine
end

section
/-! The host's external operations run on the block (30_encoding.md R102): the operation's command completes on the
bytes it has loaded, and each further round adds its answers and changes nothing else. -/

namespace Sys2Proof.Machine

/-- Settles O52: the lines are the listed ones, and the branch is the test of `ERR` itself. -/
theorem hostOperationsAreTheListedSequences : Obligations.HostOperationsAreTheListedSequences :=
  ⟨fun _ => rfl, fun _ => rfl, fun _ => rfl, fun _ _ _ =>
    ⟨fun hok => ⟨if_pos hok, if_pos hok⟩, fun herr => ⟨if_neg herr, if_neg herr⟩, rfl, fun _ => rfl⟩⟩

/-! ### The container commands complete on a written source (70_reset_and_hazards.md R249) -/

theorem State.Source.memRead {s : State} {bytes : List Byte} (h : s.Source bytes) {a n : Nat}
    (hle : a + n ≤ s.srclen.toNat) : s.memRead a n = .ok ((bytes.drop a).take n) := by
  obtain ⟨hlen, hholds⟩ := h
  refine (s.memRead_ok_iff a n _).mpr ⟨?_, ?_⟩
  · rw [List.length_take, List.length_drop]
    omega
  · have hpart := (hholds.drop a).take n
    rwa [Nat.zero_add] at hpart

theorem execPkRepack_completes {s : State} {bytes : List Byte} (h : s.Source bytes) :
    ∃ t, execPkRepack s = .next t :=
  ⟨_, (pkRepackWith_next_iff config s _).mpr ⟨bytes, (s.sourceBytes_ok_iff bytes).mpr h, rfl⟩⟩

theorem execPkUnpack_completes {s : State} {bytes : List Byte} (h : s.Source bytes) (chk : Bool) :
    ∃ t, execPkUnpack chk s = .next t := by
  suffices ∃ t, pkUnpackWith config chk s = .next t from this
  simp only [pkUnpackWith_next_iff]
  by_cases hlong : hdrSize ≤ s.srclen.toNat
  · have hread : s.memRead 0 hdrSize = .ok ((bytes.drop 0).take hdrSize) := h.memRead (by omega)
    generalize (bytes.drop 0).take hdrSize = hb at hread
    by_cases hver : headerField hb 0 = versionTag
    · by_cases hrange : hdrSize + (headerField hb 2).toNat ≤ s.srclen.toNat
      · exact ⟨_, .inr ⟨hlong, hb, hread, .inr (.inr ⟨hver, hrange, _, h.memRead hrange, rfl⟩)⟩⟩
      · exact ⟨_, .inr ⟨hlong, hb, hread, .inr (.inl ⟨hver, not_le.mp hrange, rfl⟩)⟩⟩
    · exact ⟨_, .inr ⟨hlong, hb, hread, .inl ⟨hver, rfl⟩⟩⟩
  · exact ⟨_, .inl ⟨not_le.mp hlong, rfl⟩⟩

theorem execPkValid_completes {s : State} {bytes : List Byte} (h : s.Source bytes) :
    ∃ t, execPkValid s = .next t := by
  simp only [execPkValid_next_iff]
  by_cases hlong : hdrSize ≤ s.srclen.toNat
  · have hread : s.memRead 0 4 = .ok ((bytes.drop 0).take 4) := h.memRead (le_trans (by decide) hlong)
    exact ⟨_, .inr ⟨hlong, _, hread, rfl⟩⟩
  · exact ⟨_, .inl ⟨not_le.mp hlong, rfl⟩⟩

theorem HostOp.command_completes (op : HostOp) {s : State} {bytes : List Byte} (h : s.Source bytes) :
    ∃ t, exec op.command s = .next t := by
  cases op with
  | unpack file => exact execPkUnpack_completes h false
  | repack payload => exact execPkRepack_completes h
  | validate file => exact execPkValid_completes h

/-! ### The lines up to `R STATUS` -/

/-- Bytes that fit are loaded, the command completes on them, and `STATUS` is answered. -/
theorem HostOp.makes_lines (op : HostOp) (s : State) (hfit : op.loads.length ≤ config.bufCap) :
    ∃ u v : State, u = { s with src := u.src, srclen := BitVec.ofNat 32 op.loads.length } ∧ u.Source op.loads ∧
      exec op.command u = .next v ∧ hostMakes (hostProgram op.lines) s = .next (v.reply (.word v.statusWord)) := by
  obtain ⟨src, hload, hholds, -⟩ := hostMakes_writeSrcBytes op.loads s 0 (by omega)
  have hlen : (BitVec.ofNat 32 op.loads.length).toNat = op.loads.length := by
    rw [BitVec.toNat_ofNat]
    exact Nat.mod_eq_of_lt (hfit.trans_lt config_lawful.bufCap_lt)
  have hsource : ({ s with src := src, srclen := BitVec.ofNat 32 op.loads.length } : State).Source op.loads :=
    ⟨hlen.symm, hholds⟩
  obtain ⟨v, hv⟩ := op.command_completes hsource
  refine ⟨_, v, rfl, hsource, hv, ?_⟩
  rw [hostProgram_lines, hostMakes_append hload, hostMakes_cons _ (access_writeSrclen _ _ (hlen.trans_le hfit)),
    hostMakes_cons _ ((access_command _ _).trans hv), hostMakes_cons _ (access_readStatus v), hostMakes_nil]

/-! ### Rounds of answers (log 2, log 20) -/

/-- `v` with the answers, oldest first, recorded after those of `before`. -/
def State.heard (v : State) (before : List HostRead) (answers : List HostRead) : State :=
  { v with reads := answers.reverse ++ before }

@[simp] theorem State.heard_dst (v : State) (before answers : List HostRead) :
    (v.heard before answers).dst = v.dst := rfl

theorem State.answersSince_heard (s v : State) (answers : List HostRead) :
    s.answersSince (v.heard s.reads answers) = answers := by
  simp [State.answersSince, State.heard]

theorem State.heard_append (v : State) (before answers more : List HostRead) :
    { v.heard before answers with reads := more.reverse ++ (v.heard before answers).reads } =
      v.heard before (answers ++ more) := by
  simp [State.heard]

theorem HostOp.goOn_of_no_lines {op : HostOp} {answers : List HostRead} (h : op.linesAfter answers = [])
    (s v : State) (n : Nat) : op.goOn s n (v.heard s.reads answers) = .next (v.heard s.reads answers) := by
  induction n with
  | zero => rfl
  | succ n ih =>
    rw [HostOp.goOn, State.answersSince_heard, h]
    exact ih

theorem HostOp.goOn_of_line {op : HostOp} {answers more : List HostRead} {l : HostLine}
    (h : op.linesAfter answers = [l]) {s v : State}
    (hl : hostMakes l.accesses (v.heard s.reads answers) = .next (v.heard s.reads (answers ++ more))) (n : Nat) :
    op.goOn s (n + 1) (v.heard s.reads answers) = op.goOn s n (v.heard s.reads (answers ++ more)) := by
  have hprogram : hostProgram [l] = l.accesses := List.append_nil _
  simp only [HostOp.goOn, State.answersSince_heard, h, hprogram, hl]

/-- `R DSTLEN` as a round. -/
theorem State.hears_dstlen (v : State) (before answers : List HostRead) :
    hostMakes (HostLine.readReg .dstlen).accesses (v.heard before answers) =
      .next (v.heard before (answers ++ [.word v.dstlen])) := by
  rw [← State.heard_append]
  exact hostMakes_cons _ (access_readDstlen _)

/-- `RD 0, DSTLEN` as a round. -/
theorem State.hears_dst (v : State) (before answers : List HostRead) :
    hostMakes (HostLine.readDst 0 v.dst.length).accesses (v.heard before answers) =
      .next (v.heard before (answers ++ v.dst.map .byte)) := by
  rw [← State.heard_append]
  have h := hostMakes_readDstBytes v.dst.length (v.heard before answers) 0 (Nat.zero_add _).le
  rwa [List.drop_zero, State.heard_dst, List.take_length] at h

/-! ### The rounds of each operation -/

section
variable {s v : State}

/-- On an error no line follows `R STATUS`. -/
theorem HostOp.goOn_of_err (op : HostOp) (herr : v.status.err ≠ .none) :
    op.goOn s 2 (v.heard s.reads [.word v.statusWord]) = .next (v.heard s.reads [.word v.statusWord]) := by
  have hfield : errField v.statusWord ≠ 0 := by rwa [errField_statusWord, ne_eq, ErrCode.code_eq_zero_iff]
  refine HostOp.goOn_of_no_lines ?_ s v 2
  cases op with
  | unpack file => exact if_neg hfield
  | repack payload => exact if_neg hfield
  | validate file => rfl

theorem errField_statusWord_eq_zero (herr : v.status.err = .none) : errField v.statusWord = 0 := by
  rw [errField_statusWord, herr]
  rfl

/-- `unpack` goes on with `R DSTLEN` and reads out what it answers. -/
theorem HostOp.goOn_unpack (file : List Byte) (herr : v.status.err = .none) (hdst : v.dst.length < 2 ^ 32) :
    (HostOp.unpack file).goOn s 2 (v.heard s.reads [.word v.statusWord]) =
      .next (v.heard s.reads (.word v.statusWord :: .word v.dstlen :: v.dst.map .byte)) := by
  have hlen : v.dstlen.toNat = v.dst.length := by
    rw [State.dstlen, BitVec.toNat_ofNat, Nat.mod_eq_of_lt hdst]
  have hfirst : (HostOp.unpack file).linesAfter [.word v.statusWord] = [.readReg .dstlen] :=
    if_pos (errField_statusWord_eq_zero herr)
  have hsecond : (HostOp.unpack file).linesAfter ([.word v.statusWord] ++ [.word v.dstlen]) =
      [.readDst 0 v.dst.length] := by
    rw [← hlen]
    rfl
  rw [HostOp.goOn_of_line hfirst (v.hears_dstlen s.reads _), HostOp.goOn_of_line hsecond (v.hears_dst s.reads _)]
  rfl

/-- `repack` goes on with the whole of DST, after which nothing follows. -/
theorem HostOp.goOn_repack (payload : List Byte) (herr : v.status.err = .none) (hdst : v.dst.length = fileSize) :
    (HostOp.repack payload).goOn s 2 (v.heard s.reads [.word v.statusWord]) =
      .next (v.heard s.reads (.word v.statusWord :: v.dst.map .byte)) := by
  have hfirst : (HostOp.repack payload).linesAfter [.word v.statusWord] = [.readDst 0 v.dst.length] := by
    rw [hdst]
    exact if_pos (errField_statusWord_eq_zero herr)
  have hlast : (HostOp.repack payload).linesAfter ([.word v.statusWord] ++ v.dst.map .byte) = [] := by
    cases hd : v.dst with
    | nil => rw [hd] at hdst; cases hdst
    | cons b bs => rfl
  rw [HostOp.goOn_of_line hfirst (v.hears_dst s.reads _), HostOp.goOn_of_no_lines hlast]
  rfl

end

/-! ### The results -/

/-- What an operation that has had no error returns to the host's file layer. -/
def HostOp.output (op : HostOp) (v : State) : List Byte :=
  match op with
  | .validate _ => []
  | .unpack _ | .repack _ => v.dst

theorem hostResult_of_status (v : State) (rest : List HostRead) :
    hostResult (.word v.statusWord :: rest) =
      some (if v.status.err = .none then .ok (readBytes rest) else .err v.status.err.code) := by
  simp only [hostResult, errField_statusWord, ErrCode.code_eq_zero_iff]

theorem readBytes_word_cons (w : Word) (answers : List HostRead) :
    readBytes (.word w :: answers) = readBytes answers := rfl

theorem Ends.produced_length_le {i : Instr} {s t : State} (h : Ends i s t) (hi : producesBytes i = true) :
    t.dst.length ≤ config.bufCap := by
  cases h with
  | success bytes hd sum hfit => simpa [State.succeed, hi] using hfit
  | failure e p _ => simp [State.fail, hi]

/-- After `R STATUS` an operation comes to an end, its answers give its result, and nothing else changes. -/
theorem HostOp.goOn_result (op : HostOp) {u v : State} (s : State) (hv : exec op.command u = .next v) :
    ∃ answers, op.goOn s 2 (v.heard s.reads [.word v.statusWord]) = .next (v.heard s.reads answers) ∧
      hostResult answers = some (if v.status.err = .none then .ok (op.output v) else .err v.status.err.code) := by
  by_cases herr : v.status.err = .none
  · cases op with
    | unpack file =>
      have hdst : v.dst.length < 2 ^ 32 :=
        ((exec_ends hv).produced_length_le rfl).trans_lt config_lawful.bufCap_lt
      refine ⟨_, HostOp.goOn_unpack file herr hdst, ?_⟩
      rw [hostResult_of_status, readBytes_word_cons, readBytes_map_byte, HostOp.output]
    | repack payload =>
      obtain ⟨-, c, -, -, hpad, hdst⟩ := pkRepackWith_success hv herr
      refine ⟨_, HostOp.goOn_repack payload herr (hdst ▸ container_length hpad _), ?_⟩
      rw [hostResult_of_status, readBytes_map_byte, HostOp.output]
    | validate file => exact ⟨_, HostOp.goOn_of_no_lines rfl s v 2, hostResult_of_status v []⟩
  · exact ⟨_, op.goOn_of_err herr, by rw [hostResult_of_status, if_neg herr, if_neg herr]⟩

/-- Settles O53: the lines load the bytes and run the command, which leaves the recorded answers alone, so that those
after it are the operation's own, by which the rounds go on and the result is formed. -/
theorem hostOperationsReturnTheResultOrTheError : Obligations.HostOperationsReturnTheResultOrTheError := by
  intro op s
  refine ⟨fun hlong => if_pos hlong, fun hfit => ?_⟩
  obtain ⟨u, v, hu, hsource, hv, hlines⟩ := op.makes_lines s hfit
  obtain ⟨-, -, -, -, hreads, -⟩ := (exec_ends hv).frame
  have hfirst : v.reply (.word v.statusWord) = v.heard s.reads [.word v.statusWord] := by
    rw [State.reply, hreads, hu]
    rfl
  obtain ⟨answers, hgo, hresult⟩ := op.goOn_result s hv
  have hall : op.accessAll s = .next (v.heard s.reads answers) := by
    simp only [HostOp.accessAll, hlines, hfirst, hgo]
  have hrun : op.run s = .next (v.heard s.reads answers, hostResult answers) := by
    simp only [HostOp.run, if_neg (not_lt.mpr hfit), hall, State.answersSince_heard]
  exact ⟨u, v, v.heard s.reads answers, _, hresult ▸ hrun, hu, hsource, hv, rfl, rfl⟩

end Sys2Proof.Machine
end

section
/-! The CRC engine: one byte of the table-driven loop is eight shift iterations, which are linear for XOR and
injective; the table, the checksum, and the two commands (40_crc.md). -/

namespace Sys2Proof.Machine

/-! ### Shift iterations (40_crc.md R121) -/

theorem crcShifts_eq_iterate (n : Nat) : crcShifts n = crcShift^[n] := by
  funext c
  induction n generalizing c with
  | zero => rfl
  | succ n ih => exact ih (crcShift c)

theorem crcShifts_succ (n : Nat) (c : Word) : crcShifts (n + 1) c = crcShift (crcShifts n c) := by
  simp only [crcShifts_eq_iterate, Function.iterate_succ_apply']

theorem crcShift_of_lowBit_eq_false {c : Word} (h : c.getLsbD 0 = false) : crcShift c = c >>> 1 := by
  rw [crcShift, h, if_neg Bool.false_ne_true]

theorem crcShift_xor (a b : Word) : crcShift (a ^^^ b) = crcShift a ^^^ crcShift b := by
  unfold crcShift
  rw [BitVec.getLsbD_xor, BitVec.ushiftRight_xor_distrib]
  cases a.getLsbD 0 <;> cases b.getLsbD 0
  case false.false => rfl
  case false.true => exact BitVec.xor_assoc ..
  case true.false =>
    show a >>> 1 ^^^ b >>> 1 ^^^ crcPoly = a >>> 1 ^^^ crcPoly ^^^ b >>> 1
    ac_rfl
  case true.true =>
    calc a >>> 1 ^^^ b >>> 1 = a >>> 1 ^^^ b >>> 1 ^^^ (crcPoly ^^^ crcPoly) := by simp
      _ = a >>> 1 ^^^ crcPoly ^^^ (b >>> 1 ^^^ crcPoly) := by ac_rfl

theorem crcShifts_xor (n : Nat) (a b : Word) : crcShifts n (a ^^^ b) = crcShifts n a ^^^ crcShifts n b := by
  rw [crcShifts_eq_iterate]
  exact Function.Semiconj₂.iterate crcShift_xor n a b

/-- The top bit of `crcPoly` is set, so the top bit of the result tells whether it was XORed. -/
theorem crcShift_topBit (c : Word) : (crcShift c).getLsbD 31 = c.getLsbD 0 := by
  unfold crcShift
  cases c.getLsbD 0 <;> simp [crcPoly]

theorem crcShift_injective : Function.Injective crcShift := by
  intro a b h
  have hlow : a.getLsbD 0 = b.getLsbD 0 := by rw [← crcShift_topBit, h, crcShift_topBit]
  have hshift : a >>> 1 = b >>> 1 := by
    simp only [crcShift, hlow] at h
    split at h
    · exact (BitVec.xor_left_inj _).mp h
    · exact h
  apply BitVec.eq_of_getLsbD_eq
  rintro (_ | i) -
  · exact hlow
  · simpa [Nat.add_comm] using congrArg (·.getLsbD i) hshift

theorem crcShifts_injective (n : Nat) : Function.Injective (crcShifts n) := by
  rw [crcShifts_eq_iterate]
  exact crcShift_injective.iterate n

/-- No iteration XORs while the bits shifted out are clear. -/
theorem crcShifts_of_lowBits_eq_false {n : Nat} {c : Word} (h : ∀ k < n, c.getLsbD k = false) :
    crcShifts n c = c >>> n := by
  induction n generalizing c with
  | zero => simp [crcShifts]
  | succ n ih =>
    have hrest : ∀ k < n, (c >>> 1).getLsbD k = false := fun k hk => by
      rw [BitVec.getLsbD_ushiftRight, Nat.add_comm]
      exact h (k + 1) (Nat.succ_lt_succ hk)
    rw [crcShifts, crcShift_of_lowBit_eq_false (h 0 n.succ_pos), ih hrest, ← BitVec.shiftRight_add, Nat.add_comm]

theorem getElem_lowByteMask {i : Nat} (hi : i < 32) : (0xFF#32)[i] = decide (i < 8) :=
  Nat.testBit_two_pow_sub_one 8 i

theorem eq_highBits_xor_lowByte (c : Word) : c = c >>> 8 <<< 8 ^^^ (c &&& 0xFF#32) := by
  ext i hi
  by_cases h : i < 8
  · simp [getElem_lowByteMask, h]
  · simp [getElem_lowByteMask, h, BitVec.getLsbD_eq_getElem hi, show 8 + (i - 8) = i by omega]

/-- The low byte decides what the eight iterations XOR; the rest is only shifted. -/
theorem crcShifts_eight (c : Word) : crcShifts 8 c = c >>> 8 ^^^ crcShifts 8 (c &&& 0xFF#32) := by
  have hclear : ∀ k < 8, (c >>> 8 <<< 8).getLsbD k = false := by simp +contextual
  have hhigh : c >>> 8 <<< 8 >>> 8 = c >>> 8 := by bv_omega
  calc crcShifts 8 c = crcShifts 8 (c >>> 8 <<< 8 ^^^ (c &&& 0xFF#32)) := by rw [← eq_highBits_xor_lowByte]
    _ = _ := by rw [crcShifts_xor, crcShifts_of_lowBits_eq_false hclear, hhigh]

/-! ### One byte of the checksum (40_crc.md R125) -/

theorem crcEntry_crcIndex (acc : Word) (b : Byte) :
    crcEntry (crcIndex acc b) = crcShifts 8 ((acc ^^^ b.setWidth 32) &&& 0xFF#32) := by
  rw [crcEntry, crcIndex, BitVec.ofNat_toNat, BitVec.setWidth_eq]

theorem xor_byte_ushiftRight_eight (acc : Word) (b : Byte) : (acc ^^^ b.setWidth 32) >>> 8 = acc >>> 8 := by
  have hbyte : b.setWidth 32 >>> 8 = 0#32 := by bv_omega
  rw [BitVec.ushiftRight_xor_distrib, hbyte, BitVec.xor_zero]

/-- The step over the table is eight iterations on the accumulator with the byte XORed in. -/
theorem crcByte_eq_crcShifts (acc : Word) (b : Byte) :
    crcByte crcTable acc b = crcShifts 8 (acc ^^^ b.setWidth 32) := by
  rw [crcByte, crcTable_get, crcEntry_crcIndex, crcShifts_eight (acc ^^^ b.setWidth 32), xor_byte_ushiftRight_eight]

theorem crcByte_injective (b : Byte) : Function.Injective (crcByte crcTable · b) := by
  intro acc acc' h
  simp only [crcByte_eq_crcShifts] at h
  exact (BitVec.xor_left_inj _).mp (crcShifts_injective 8 h)

theorem crcByte_injective_byte (acc : Word) : Function.Injective (crcByte crcTable acc) := by
  intro b b' h
  simp only [crcByte_eq_crcShifts] at h
  have hwide : b.setWidth 32 = b'.setWidth 32 := (BitVec.xor_right_inj _).mp (crcShifts_injective 8 h)
  simpa using congrArg (BitVec.setWidth 8) hwide

theorem foldl_crcByte_injective (bytes : List Byte) : Function.Injective (bytes.foldl (crcByte crcTable)) := by
  induction bytes with
  | nil => exact fun _ _ h => h
  | cons b bs ih => exact ih.comp (crcByte_injective b)

/-- Settles O25: the accumulators before the changed byte agree, the step there is injective in the byte, and every
later step is injective in the accumulator. -/
theorem oneChangedByteChangesTheChecksum : Obligations.OneChangedByteChangesTheChecksum := by
  intro pre suf b b' hne h
  rw [crc, crc, checksum_append, checksum_append, List.foldl_cons, List.foldl_cons] at h
  exact hne (crcByte_injective_byte _ (foldl_crcByte_injective suf h))

/-! ### The appended checksum -/

/-- The accumulator's own low byte clears the bits that eight iterations shift out. -/
theorem crcByte_lowByte (acc : Word) : crcByte crcTable acc (acc.extractLsb' 0 8) = acc >>> 8 := by
  have hclear : ∀ k < 8, (acc ^^^ (acc.extractLsb' 0 8).setWidth 32).getLsbD k = false := by
    intro k hk
    simp [hk, hk.trans (by decide : 8 < 32)]
  rw [crcByte_eq_crcShifts, crcShifts_of_lowBits_eq_false hclear, xor_byte_ushiftRight_eight]

/-- Each byte of `le32 acc` is the low byte that the accumulator has by then, so the four steps shift all of it out. -/
theorem foldl_crcByte_le32_self (acc : Word) : (le32 acc).foldl (crcByte crcTable) acc = 0 := by
  have hbyte (k : Nat) : acc.extractLsb' k 8 = (acc >>> k).extractLsb' 0 8 := by
    ext i
    simp
  rw [le32, hbyte 8, hbyte 16, hbyte 24]
  simp only [List.foldl_cons, List.foldl_nil, crcByte_lowByte, ← BitVec.shiftRight_add, Nat.reduceAdd]
  exact BitVec.ushiftRight_eq_zero (Nat.le_refl 32)

/-- Settles O24: after `m` the accumulator is the checksum that the four bytes are taken from. -/
theorem appendedChecksumSumsToZero : Obligations.AppendedChecksumSumsToZero := fun m =>
  (checksum_append crcTable m _).trans (foldl_crcByte_le32_self (crc m))

/-! ### The values of the table and of the checksum (40_crc.md R121, R125) -/

theorem crcTable_get_one : crcTable.get 1 = 0x77073096#32 := by
  rw [crcTable_get]
  decide

/-- Settles O19: the sequence is the iterations from the index. -/
theorem tableEntriesAreEightShifts : Obligations.TableEntriesAreEightShifts := by
  refine ⟨fun i => ⟨fun n => crcShifts n (BitVec.ofNat 32 i.val), rfl, fun n _ => crcShifts_succ n _,
    crcTable_get i⟩, ?_, crcTable_get_one, ?_, ?_⟩ <;>
  · rw [crcTable_get]
    decide

theorem crc_nineDigits :
    crc [0x31#8, 0x32#8, 0x33#8, 0x34#8, 0x35#8, 0x36#8, 0x37#8, 0x38#8, 0x39#8] = 0x340BC6D9#32 := by
  decide +kernel

/-- Settles O20: `crc` is a fold from `crcInit` and ends with no further operation. -/
theorem checksumFoldsTheBytes : Obligations.ChecksumFoldsTheBytes := by
  refine ⟨rfl, fun bs b idx hidx => ?_, crc_nineDigits⟩
  obtain rfl : idx = crcIndex (crc bs) b := Fin.ext hidx
  exact checksum_append_singleton crcTable bs b

/-! ### The commands (40_crc.md R124, R126) -/

/-- Settles O21: the meaning is one update of the state, and a valid table is already the one it writes. -/
theorem crcTblBuildsTheTable : Obligations.CrcTblBuildsTheTable := by
  refine ⟨decode_encode .crcTbl, fun s => ⟨_, execCrcTbl_eq s, rfl, fun _ => rfl, fun hok htv => (hok htv).symm,
    statusBits_success true, ?_⟩⟩
  have hreg : regAt 0x404#12 = .t 1 := by decide
  rw [hreg]
  exact congrArg some crcTable_get_one

/-- The lazy guard leaves the table in place, so the command sums over `crcTable`. -/
theorem execCrcSum_of_source {s : State} {bytes : List Byte} (hok : s.TableOk) (hsource : s.Source bytes) :
    execCrcSum s = .next
      { s with crcacc := crc bytes, table := crcTable, tv := true, status := .success, seq := .idle } := by
  refine (execCrcSum_next_iff _ _).mpr ⟨bytes, (s.sourceBytes_ok_iff bytes).mpr hsource, ?_⟩
  rw [State.ensureTable_eq (s.begin .tbl) hok]
  rfl

/-- Settles O22: the command takes its source as written and sums it; the two values are those of `crc`. -/
theorem crcSumPutsTheChecksum : Obligations.CrcSumPutsTheChecksum := by
  refine ⟨decode_encode .crcSum, fun s bytes hok hsource => ⟨_, execCrcSum_of_source hok hsource, rfl,
    statusBits_success true, fun hempty => ?_, fun hdigits => hdigits ▸ crc_nineDigits⟩⟩
  obtain ⟨hlength, -⟩ := hsource
  obtain rfl : bytes = [] := List.length_eq_zero_iff.mp (by rw [hlength, hempty]; rfl)
  rfl

end Sys2Proof.Machine
end

section
/-! The codec adapter's two commands: how each completes on a written source, the size of what a decompression leaves
in DST, and the round trip (41_codec_adapter.md). -/

namespace Sys2Proof.Machine

/-! ### Each command on a written source (41_codec_adapter.md R146, R147) -/

theorem dcaCompWith_of_source (P : Params) {s : State} {input : List Byte} (h : s.Source input) :
    dcaCompWith P s = .next ((s.begin .comp).finishCompress .dcaComp (compress P input)) :=
  (dcaCompWith_next_iff P s _).mpr ⟨input, (s.sourceBytes_ok_iff input).mpr h, rfl⟩

theorem dcaDecompWith_of_source (P : Params) {s : State} {input : List Byte} (h : s.Source input) :
    dcaDecompWith P s = .next ((s.begin .decomp).finishDecompress .dcaDecomp (decompress P input s.exp)) :=
  (dcaDecompWith_next_iff P s _).mpr ⟨input, (s.sourceBytes_ok_iff input).mpr h, rfl⟩

/-- Settles O26: the command hands its source to the adapter, whose result decides the end. -/
theorem dcaCompOutcome : Obligations.DcaCompOutcome := by
  refine ⟨decode_encode .dcaComp, fun s input hsource => ?_⟩
  have hends (P : Params) : ∃ t, dcaCompWith P s = .next t ∧ CompEnds P input (s.failedEmpty .comp) s.produced t :=
    ⟨_, dcaCompWith_of_source P hsource, s.finishCompress_ends P _ .dcaComp rfl rfl input⟩
  exact ⟨hends config, hends⟩

/-- Settles O27: the command hands its source and `EXP` to the adapter, whose result decides the end. -/
theorem dcaDecompOutcome : Obligations.DcaDecompOutcome := by
  refine ⟨decode_encode .dcaDecomp, fun s input hsource => ?_⟩
  have hends (P : Params) : ∃ t, dcaDecompWith P s = .next t ∧
      DecompEnds P input s.exp (s.failedEmpty .decomp) s.produced t :=
    ⟨_, dcaDecompWith_of_source P hsource, s.finishDecompress_ends P _ .dcaDecomp rfl rfl input s.exp⟩
  exact ⟨hends config, hends⟩

/-! ### The size of a decompression that succeeds (41_codec_adapter.md R149, 43_container.md R189) -/

theorem AdapterKind.decompressErr_ne_none (k : AdapterKind) : k.decompressErr ≠ .none := by
  cases k <;> decide

/-- The adapter answers no other length than the expected one, so a success leaves just that many bytes. -/
theorem State.finishDecompress_dst_length {P : Params} {s : State} {i : Instr} {input : List Byte} {expected : Word}
    (herr : (s.finishDecompress i (decompress P input expected)).status.err = .none) :
    (s.finishDecompress i (decompress P input expected)).dst.length = expected.toNat := by
  cases hr : decompress P input expected with
  | error k =>
    rw [hr] at herr
    exact absurd herr k.decompressErr_ne_none
  | ok out =>
    obtain ⟨-, -, hlength⟩ := (decompress_ok_iff P input out expected).mp hr
    exact hlength

theorem dcaDecompWith_dst_length {P : Params} {s t : State} (h : dcaDecompWith P s = .next t)
    (herr : t.status.err = .none) : t.dst.length = s.exp.toNat := by
  obtain ⟨input, -, rfl⟩ := (dcaDecompWith_next_iff P s t).mp h
  exact State.finishDecompress_dst_length herr

/-- The integrity check can only add a `FormatError`: it leaves the latched `realSize` to the decompression. -/
theorem State.unpackChecked_dst_length {P : Params} {s : State} {q : Sequencer} {chk : Bool} {c : List Byte}
    (herr : (({ s with seq := q } : State).unpackChecked P chk c).status.err = .none) :
    (({ s with seq := q } : State).unpackChecked P chk c).dst.length = q.hl.realSize.toNat := by
  cases chk with
  | false => exact State.finishDecompress_dst_length herr
  | true =>
    rw [State.unpackChecked_true_setSeq] at herr ⊢
    split at herr
    · cases herr
    · rename_i hsum
      rw [if_neg hsum]
      exact State.finishDecompress_dst_length herr

theorem pkUnpackWith_dst_length {P : Params} {chk : Bool} {s t : State} {hb : List Byte} (hhb : s.HeaderBytes hb)
    (h : pkUnpackWith P chk s = .next t) (herr : t.status.err = .none) :
    t.dst.length = (headerField hb 1).toNat := by
  obtain ⟨-, hlength, hholds⟩ := hhb
  obtain ⟨-, rfl⟩ | ⟨-, hb', hread, ⟨-, rfl⟩ | ⟨-, -, rfl⟩ | ⟨-, -, c, -, rfl⟩⟩ :=
    (pkUnpackWith_next_iff P chk s t).mp h
  · cases herr
  · cases herr
  · cases herr
  · obtain ⟨hlength', hholds'⟩ := (s.memRead_ok_iff 0 hdrSize hb').mp hread
    obtain rfl : hb' = hb := hholds'.unique hholds (hlength'.trans hlength.symm)
    exact State.unpackChecked_dst_length herr

theorem State.dstlen_of_length {t : State} {w : Word} (h : t.dst.length = w.toNat) : t.dstlen = w := by
  rw [State.dstlen, h, BitVec.ofNat_toNat, BitVec.setWidth_eq]

/-- Settles O28: both commands end in the adapter's decompression, one with `EXP` and the other with the latched
`realSize`; `exec` runs them at `config`. -/
theorem decompressedSizeIsTheDeclaredOne : Obligations.DecompressedSizeIsTheDeclaredOne := by
  refine fun P s t => ⟨fun h herr => ?_, fun chk hb hhb h herr => ?_⟩
  · have hlength : t.dst.length = s.exp.toNat :=
      h.elim (fun hexec => dcaDecompWith_dst_length (P := config) hexec herr) (dcaDecompWith_dst_length · herr)
    exact ⟨hlength, State.dstlen_of_length hlength⟩
  · have hlength : t.dst.length = (headerField hb 1).toNat :=
      h.elim (fun hexec => pkUnpackWith_dst_length (P := config) hhb hexec herr)
        (pkUnpackWith_dst_length hhb · herr)
    exact ⟨hlength, State.dstlen_of_length hlength⟩

/-! ### The round trip (41_codec_adapter.md R141) -/

theorem AdapterKind.compressErr_ne_none (k : AdapterKind) : k.compressErr ≠ .none := by
  cases k <;> decide

/-- A `DCA.COMP` that raises no error leaves in DST what the adapter made of its source. -/
theorem dcaCompWith_success {P : Params} {s t : State} {p : List Byte} (hsource : s.Source p)
    (h : dcaCompWith P s = .next t) (herr : t.status.err = .none) : compress P p = .ok t.dst := by
  obtain rfl : _ = t := Host.Outcome.next.inj ((dcaCompWith_of_source P hsource).symm.trans h)
  cases hc : compress P p with
  | error k =>
    rw [hc] at herr
    exact absurd herr k.compressErr_ne_none
  | ok c => rfl

/-- The adapter's round trip: by CP4 a payload whose bound fits the buffers fits them too, and CP3 gives it back. -/
theorem decompress_of_compress {P : Params} (hP : P.Lawful) {p c : List Byte} (hc : compress P p = .ok c)
    {expected : Word} (hexp : expected.toNat = p.length) : decompress P c expected = .ok p := by
  obtain ⟨hfit, hdeflate⟩ := (compress_ok_iff P p c).mp hc
  obtain ⟨hbound, -⟩ := hP.cp4
  refine (decompress_ok_iff P c p expected).mpr ⟨?_, ?_, hexp.symm⟩
  · rw [hexp]
    exact (hbound p.length).trans hfit
  · rw [hexp]
    exact hP.cp3 p c hdeflate

/-- Settles O29: the adapter gives the source back, and the old `SRCLEN` in `EXP` is its length. -/
theorem compressThenDecompressRestores : Obligations.CompressThenDecompressRestores := by
  intro P s t s2 p hP hsource h herr hsource2 hexp
  have hlength : s2.exp.toNat = p.length := by rw [hexp, hsource.1]
  rw [dcaDecompWith_of_source P hsource2,
    decompress_of_compress hP (dcaCompWith_success hsource h herr) hlength]
  rfl

end Sys2Proof.Machine
end

section
/-! The container header codec: the bytes of an encoded header, the two round trips, and the commands `HDR.ENC` and
`HDR.DEC` (42_header_codec.md). -/

namespace Sys2Proof.Machine

/-! ### The bytes of an encoded header (42_header_codec.md R160) -/

/-- The four bytes from byte `4k` on are field `k`. -/
theorem take_drop_encodeHeader (h : Header) (k : Fin 8) :
    ((encodeHeader h).drop (4 * k.val)).take 4 = le32 (h.get k) := by
  fin_cases k <;> rfl

theorem getElem?_le32 (v : Word) (j : Fin 4) : (le32 v)[j.val]? = some (v.extractLsb' (8 * j.val) 8) := by
  fin_cases j <;> rfl

theorem getElem?_encodeHeader (h : Header) (k : Fin 8) (j : Fin 4) :
    (encodeHeader h)[4 * k.val + j.val]? = some ((h.get k).extractLsb' (8 * j.val) 8) := by
  rw [← getElem?_le32, ← take_drop_encodeHeader, List.getElem?_take_of_lt j.isLt, List.getElem?_drop]

/-- Settles O31: the encoding joins the four bytes of each field, so byte `4k + j` is byte `j` of field `k`. -/
theorem headerByteLayout : Obligations.HeaderByteLayout :=
  fun h => ⟨rfl, encodeHeader_length h, getElem?_encodeHeader h⟩

/-! ### The round trips (42_header_codec.md R164) -/

/-- A header is determined by its eight fields. -/
theorem Header.ext_get {h h' : Header} (hget : ∀ k, h.get k = h'.get k) : h = h' := by
  obtain ⟨_, _, _, _, _, _, _, _⟩ := h
  obtain ⟨_, _, _, _, _, _, _, _⟩ := h'
  congr
  exacts [hget 0, hget 1, hget 2, hget 3, hget 4, hget 5, hget 6, hget 7]

@[simp] theorem decodeHeader_get (bs : List Byte) (k : Fin 8) : (decodeHeader bs).get k = headerField bs k := by
  fin_cases k <;> rfl

@[simp] theorem decodeHeader_encodeHeader (h : Header) : decodeHeader (encodeHeader h) = h := by
  refine Header.ext_get fun k => ?_
  rw [decodeHeader_get, ← List.append_nil (encodeHeader h), headerField_encodeHeader_append]

/-- A field of four bytes that are there encodes to those bytes. -/
theorem le32_headerField {bs : List Byte} {k : Nat} (hk : 4 * k + 4 ≤ bs.length) :
    le32 (headerField bs k) = (bs.drop (4 * k)).take 4 :=
  le32_unle32 (by rw [List.length_take, List.length_drop]; omega)

/-- The first `n` fields of a sequence encode to its first `4n` bytes. -/
theorem flatMap_le32_headerField (bs : List Byte) (n : Nat) (hn : 4 * n ≤ bs.length) :
    (List.range n).flatMap (fun k => le32 (headerField bs k)) = bs.take (4 * n) := by
  induction n with
  | zero => rfl
  | succ n ih =>
    rw [List.range_succ, List.flatMap_append, List.flatMap_singleton, ih (by omega), le32_headerField hn, Nat.mul_succ,
      List.take_add]

theorem encodeHeader_decodeHeader {bs : List Byte} (hlen : 32 ≤ bs.length) :
    encodeHeader (decodeHeader bs) = bs.take 32 :=
  flatMap_le32_headerField bs 8 hlen

/-- Settles O32: the two round trips, from which an encoding has just one header, the decoded one. -/
theorem headerCodecRoundTrip : Obligations.HeaderCodecRoundTrip := by
  refine ⟨decodeHeader_encodeHeader, fun bs => encodeHeader_decodeHeader, fun bs hlen => ⟨decodeHeader bs, ?_, ?_⟩⟩
  · exact (encodeHeader_decodeHeader hlen.ge).trans (List.take_of_length_le hlen.le)
  · rintro h rfl
    exact (decodeHeader_encodeHeader h).symm

/-! ### The commands (42_header_codec.md R161, R163) -/

/-- The header of the spec's example for `HDR.ENC` and its 32 bytes. -/
theorem encodeHeader_example :
    encodeHeader ⟨21, 5, 5, 860693325, 0, 860700740, 0xC9EF5979, 1079398965⟩ =
      [0x15, 0, 0, 0, 0x05, 0, 0, 0, 0x05, 0, 0, 0, 0x4D, 0x23, 0x4D, 0x33, 0, 0, 0, 0, 0x44, 0x40, 0x4D, 0x33,
        0x79, 0x59, 0xEF, 0xC9, 0x35, 0x52, 0x56, 0x40] := by
  decide

/-- Settles O33: the meaning is one update of the state, whose DST is the encoding of the registers. -/
theorem hdrEncSerialisesTheRegisters : Obligations.HdrEncSerialisesTheRegisters :=
  ⟨decode_encode .hdrEnc, fun s => ⟨_, execHdrEnc_eq s, rfl, rfl, rfl, fun hexample =>
    (congrArg encodeHeader hexample).trans encodeHeader_example⟩⟩

/-- With fewer than 32 bytes `HDR.DEC` raises its one error. -/
theorem execHdrDec_of_short {s : State} (hshort : s.srclen.toNat < hdrSize) :
    execHdrDec s = .next (s.failedKeep .hdec .formatError) :=
  (execHdrDec_next_iff s _).mpr (.inl ⟨hshort, rfl⟩)

/-- With a header at the start of its source `HDR.DEC` decodes it, whatever it holds. -/
theorem execHdrDec_of_headerBytes {s : State} {hb : List Byte} (hhb : s.HeaderBytes hb) :
    execHdrDec s = .next { s with h := decodeHeader hb, status := .success, seq := .idle } := by
  obtain ⟨hlong, hlen, hholds⟩ := hhb
  exact (execHdrDec_next_iff s _).mpr
    (.inr ⟨hlong, hb, (s.memRead_ok_iff 0 hdrSize hb).mpr ⟨hlen, hholds⟩, rfl⟩)

/-- Settles O34: `SRCLEN` decides between the error and the decoded header, of which no field is checked. -/
theorem hdrDecParsesTheHeader : Obligations.HdrDecParsesTheHeader := by
  refine ⟨decode_encode .hdrDec, fun s => ⟨fun hshort => ⟨execHdrDec_of_short hshort, fun htv => ?_⟩,
    fun hb hhb => ⟨_, execHdrDec_of_headerBytes hhb, rfl, decodeHeader_get hb, ?_⟩⟩⟩
  · show statusBits (.failure .formatError .hdec) s.tv = _
    rw [htv]
    decide
  · rintro rfl
    exact (congrArg decodeHeader encodeHeader_example).symm.trans (decodeHeader_encodeHeader _)

end Sys2Proof.Machine
end

section
/-! The ends of the commands by phase and error code (43_container.md R176, R177; 60_exceptions.md R211, R212). -/

namespace Sys2Proof.Machine

/-- What 60_exceptions.md R211 lists for a command fits the phases that the command walks before `P_DONE`. -/
theorem phase_and_cause_of_mem_raisable {i : Instr} {e : ErrCode} {p : Phase} (h : (e, p) ∈ raisable i) :
    p ∈ phasesOf i ∧ p ≠ .done ∧ e ≠ .none ∧ e ≠ .readError ∧ e ≠ .writeError ∧ causeListed e p = true := by
  have key : ∀ ep ∈ raisable i, ep.2 ∈ phasesOf i ∧ ep.2 ≠ .done ∧ ep.1 ≠ .none ∧ ep.1 ≠ .readError ∧
      ep.1 ≠ .writeError ∧ causeListed ep.1 ep.2 = true := by
    cases i with
    | pkUnpack chk => cases chk <;> decide
    | _ => decide
  exact key (e, p) h

theorem done_mem_phasesOf (i : Instr) : Phase.done ∈ phasesOf i := by
  cases i with
  | pkUnpack chk => cases chk <;> decide
  | _ => decide

/-- Settles O47: a success ends at `P_DONE`, and every error that a command can end in is of its list. -/
theorem errorsHaveTheListedCauses : Obligations.ErrorsHaveTheListedCauses := by
  refine ⟨fun i s t hexec => ?_, fun i ep hep => ?_⟩
  · cases exec_ends hexec with
    | success =>
      exact ⟨done_mem_phasesOf i, iff_of_true rfl rfl, fun hne => absurd rfl hne, ErrCode.noConfusion,
        ErrCode.noConfusion⟩
    | failure e p hlisted =>
      obtain ⟨hphase, hdone, hnone, hread, hwrite, -⟩ := phase_and_cause_of_mem_raisable hlisted
      exact ⟨hphase, iff_of_false hnone hdone, fun _ => hlisted, hread, hwrite⟩
  · obtain ⟨-, -, -, -, -, hcause⟩ := phase_and_cause_of_mem_raisable hep
    exact hcause

end Sys2Proof.Machine
end

section
/-! `PK.REPACK`: its container or the error of its cause, and the fixed size of what it produces
(43_container.md R179 to R184). -/

namespace Sys2Proof.Machine

/-- An end that follows the adapter's `compress`, by its answer, ends as a compression does
(41_codec_adapter.md R142 to R144). -/
theorem compEnds_of_compress (P : Params) (input : List Byte) {fail : ErrCode → State} {good : List Byte → State}
    {f : Except AdapterKind (List Byte) → State} (herr : ∀ k, f (.error k) = fail k.compressErr)
    (hok : ∀ c, f (.ok c) = good c) : CompEnds P input fail good (f (compress P input)) := by
  refine ⟨fun hlarge => ?_, fun hfits st out hdeflate => ?_⟩
  · rw [compress, if_pos hlarge, herr]
    rfl
  · rw [compress, if_neg (not_lt.mpr hfits), hdeflate]
    cases st <;> simp [AdapterKind.ofStatus, AdapterKind.compressErr, herr, hok]

/-- The container is the layout of 30_encoding.md R97 and R98 whenever the compressed bytes fit. -/
theorem State.container_eq_containerOf {s : State} {c : List Byte} (hok : s.TableOk) (hfit : c.length ≤ payloadMax) :
    s.container c = containerOf s.srclen c := by
  have hpad : (paddingSize c.length).toNat = 524288 - 32 - c.length := by
    simp only [paddingSize, fileSize, hdrSize, payloadMax] at hfit ⊢
    omega
  rw [State.container, s.checksum_ensureTable hok, hpad]
  rfl

theorem paddingSize_neg_iff (n : Nat) : paddingSize n < 0 ↔ 524256 < n := by
  simp only [paddingSize, fileSize, hdrSize]
  omega

/-- From the compressed bytes on, whatever the table holds (43_container.md R182). -/
theorem State.finishRepack_ok (s : State) (c : List Byte) :
    (s.begin .comp).finishRepack (.ok c) =
      if 524256 < c.length then s.ensureTable.fail .pkRepack .oversize .size
      else s.ensureTable.succeed .pkRepack (s.container c) .zero 0 := by
  have h : (s.begin .comp).finishRepack (.ok c) = _ := s.packCompressed_setSeq _ c
  rw [h]
  simp only [paddingSize_neg_iff, State.container, State.ensureTable_srclen]

/-- From the compressed bytes on, with the table that the invariant gives, in the words of the layout. -/
theorem State.finishRepack_ok_of_tableOk {s : State} (hok : s.TableOk) (c : List Byte) :
    (s.begin .comp).finishRepack (.ok c) =
      if 524256 < c.length then s.withTable.failedEmpty .size .oversize
      else s.withTable.produced (containerOf s.srclen c) := by
  have htable : s.ensureTable = s.withTable := s.ensureTable_eq hok
  rw [State.finishRepack_ok, htable]
  split
  · rfl
  · next hfit =>
    rw [State.container_eq_containerOf hok (not_lt.mp hfit)]
    rfl

theorem pkRepackWith_of_source (P : Params) {s : State} {p : List Byte} (h : s.Source p) :
    pkRepackWith P s = .next ((s.begin .comp).finishRepack (compress P p)) :=
  (pkRepackWith_next_iff P s _).mpr ⟨p, (s.sourceBytes_ok_iff p).mpr h, rfl⟩

/-- Settles O35: the command hands its source to the adapter, and the length of what it answers decides the rest. -/
theorem pkRepackOutcome : Obligations.PkRepackOutcome := by
  refine ⟨decode_encode .pkRepack, fun s p hok hsource => ?_⟩
  have hends (P : Params) : ∃ t, pkRepackWith P s = .next t ∧ RepackEnds P s p t :=
    ⟨_, pkRepackWith_of_source P hsource, compEnds_of_compress P p (f := (s.begin .comp).finishRepack)
      (fun _ => rfl) (State.finishRepack_ok_of_tableOk hok)⟩
  exact ⟨hends config, hends⟩

/-- A `PK.REPACK` that ends in an error ends in one of its list, with nothing in DST. -/
theorem pkRepackWith_failure {P : Params} {s t : State} (h : pkRepackWith P s = .next t)
    (herr : t.status.err ≠ .none) :
    t.status.err ∈ [ErrCode.oversize, .compressStream, .compressData, .compressMemory, .compressBuffer] ∧
      t.dst = [] := by
  obtain ⟨p, -, rfl⟩ := (pkRepackWith_next_iff P s t).mp h
  cases hc : compress P p with
  | error k =>
    have hlisted : k.compressErr ∈
        [ErrCode.oversize, .compressStream, .compressData, .compressMemory, .compressBuffer] := by
      cases k <;> decide
    exact ⟨hlisted, rfl⟩
  | ok c =>
    rw [hc] at herr
    rw [State.finishRepack_ok] at herr ⊢
    split
    · exact ⟨List.mem_cons_self, rfl⟩
    · next hfit =>
      rw [if_neg hfit] at herr
      exact absurd rfl herr

theorem pkRepackWith_success_length {P : Params} {s t : State} (h : pkRepackWith P s = .next t)
    (herr : t.status.err = .none) : t.dst.length = fileSize := by
  obtain ⟨-, c, -, -, hpad, hdst⟩ := pkRepackWith_success h herr
  rw [hdst]
  exact container_length hpad _

/-- Settles O36: a success leaves a container and an error nothing; `exec` runs the command at `config`. -/
theorem repackIsFixedSizeOrNothing : Obligations.RepackIsFixedSizeOrNothing := by
  intro P s t h
  obtain ⟨Q, hQ⟩ : ∃ Q, pkRepackWith Q s = .next t := h.elim (⟨config, ·⟩) (⟨P, ·⟩)
  by_cases herr : t.status.err = .none
  · have hlength := pkRepackWith_success_length hQ herr
    exact .inl ⟨herr, hlength, State.dstlen_of_length hlength⟩
  · obtain ⟨hlisted, hdst⟩ := pkRepackWith_failure hQ herr
    exact .inr ⟨hlisted, hdst, State.dstlen_of_length (congrArg List.length hdst)⟩

end Sys2Proof.Machine
end

section
/-! `PK.UNPACK` phase by phase (43_container.md R185 to R190), and the errors that its checks give. -/

namespace Sys2Proof.Machine

/-! ### What a source holds -/

theorem State.HeaderBytes.memRead {s : State} {hb : List Byte} (h : s.HeaderBytes hb) :
    s.memRead 0 hdrSize = .ok hb := by
  obtain ⟨-, hlen, hholds⟩ := h
  exact (s.memRead_ok_iff 0 hdrSize hb).mpr ⟨hlen, hholds⟩

/-- What is held is held in two parts, one after the other. -/
theorem State.Holds.append {s : State} {a : Nat} {xs ys : List Byte} (h : s.Holds a (xs ++ ys)) :
    s.Holds a xs ∧ s.Holds (a + xs.length) ys := by
  have hleft := h.take xs.length
  have hright := h.drop xs.length
  rw [List.take_left] at hleft
  rw [List.drop_left] at hright
  exact ⟨hleft, hright⟩

/-! ### The phases in order, for any parameters (43_container.md R185) -/

section
variable (P : Params) (chk : Bool) {s : State} {hb c : List Byte}

theorem pkUnpackWith_of_short (hshort : s.srclen.toNat < hdrSize) :
    pkUnpackWith P chk s = .next (s.failedEmpty .hdec .formatError) :=
  (pkUnpackWith_next_iff P chk s _).mpr (.inl ⟨hshort, rfl⟩)

theorem pkUnpackWith_of_wrong_version (hhb : s.HeaderBytes hb) (hver : headerField hb 0 ≠ versionTag) :
    pkUnpackWith P chk s = .next (s.failedEmpty .ver .formatError) :=
  (pkUnpackWith_next_iff P chk s _).mpr (.inr ⟨hhb.1, hb, hhb.memRead, .inl ⟨hver, rfl⟩⟩)

theorem pkUnpackWith_of_out_of_bounds (hhb : s.HeaderBytes hb) (hver : headerField hb 0 = versionTag)
    (hrange : s.srclen.toNat < hdrSize + (headerField hb 2).toNat) :
    pkUnpackWith P chk s = .next (s.failedEmpty .bounds .formatError) :=
  (pkUnpackWith_next_iff P chk s _).mpr (.inr ⟨hhb.1, hb, hhb.memRead, .inr (.inl ⟨hver, hrange, rfl⟩)⟩)

/-- Past the range check the compressed range is read, and nothing beyond it. -/
theorem pkUnpackWith_of_range (hhb : s.HeaderBytes hb) (hver : headerField hb 0 = versionTag)
    (hlen : c.length = (headerField hb 2).toNat) (hrange : hdrSize + c.length ≤ s.srclen.toNat)
    (hc : s.Holds hdrSize c) :
    pkUnpackWith P chk s =
      .next (({ s with seq := ⟨.bounds, decodeHeader hb, [], 0⟩ } : State).unpackChecked P chk c) :=
  (pkUnpackWith_next_iff P chk s _).mpr (.inr ⟨hhb.1, hb, hhb.memRead, .inr (.inr ⟨hver, hlen ▸ hrange, c,
    (s.memRead_ok_iff hdrSize _ c).mpr ⟨hlen, hc⟩, rfl⟩)⟩)

end

/-- The integrity check on the header that is latched (43_container.md R188). -/
theorem State.unpackChecked_true_latched {s : State} (hok : s.TableOk) (P : Params) (hb c : List Byte) :
    ({ s with seq := ⟨.bounds, decodeHeader hb, [], 0⟩ } : State).unpackChecked P true c =
      if crc c ≠ headerField hb 6 then s.withTable.failedEmpty .chk .formatError
      else ({ s.withTable with seq := ⟨.decomp, decodeHeader hb, [], crc c⟩ } : State).finishDecompress
        (.pkUnpack true) (decompress P c (headerField hb 1)) :=
  State.unpackChecked_true _ P c hok

/-- Settles O38: each phase either ends the command or hands on to the next, and the last is the adapter's. -/
theorem pkUnpackOutcome : Obligations.PkUnpackOutcome := by
  refine ⟨decode_encode (.pkUnpack false), decode_encode (.pkUnpack true), fun s chk =>
    ⟨pkUnpackWith_of_short config chk, fun hb hhb => ⟨pkUnpackWith_of_wrong_version config chk hhb,
      pkUnpackWith_of_out_of_bounds config chk hhb, fun c hver hlen hrange hc => ?_⟩⟩⟩
  have hrun (P : Params) := pkUnpackWith_of_range P chk hhb hver hlen hrange hc
  refine ⟨?_, ?_, ?_⟩
  · rintro rfl
    have hends (P : Params) : ∃ t, pkUnpackWith P false s = .next t ∧
        DecompEnds P c (headerField hb 1) (s.failedEmpty .decomp) s.produced t :=
      ⟨_, hrun P, s.finishDecompress_ends P _ (.pkUnpack false) rfl rfl c _⟩
    exact ⟨hends config, hends⟩
  · rintro rfl hok hsum
    refine (hrun config).trans ?_
    rw [State.unpackChecked_true_latched hok, if_pos hsum]
  · rintro rfl hok hsum
    have hends (P : Params) : ∃ t, pkUnpackWith P true s = .next t ∧
        DecompEnds P c (headerField hb 1) (s.withTable.failedEmpty .decomp) s.withTable.produced t := by
      refine ⟨_, hrun P, ?_⟩
      rw [State.unpackChecked_true_latched hok, if_neg (not_not.mpr hsum)]
      exact s.withTable.finishDecompress_ends P _ (.pkUnpack true) rfl rfl c _
    exact ⟨hends config, hends⟩

/-- The version field of a header is its first four bytes. -/
theorem headerField_zero_append {version : List Byte} (hlen : version.length = 4) (rest : List Byte) :
    headerField (version ++ rest) 0 = unle32 version := by
  rw [headerField, Nat.mul_zero, List.drop_zero, List.take_left' hlen]

/-- Settles O39: the version is compared before any other byte of the file is looked at. -/
theorem versionGateOfTheUnpacker : Obligations.VersionGateOfTheUnpacker := by
  refine fun s chk version rest => ⟨pkUnpackWith_of_short config chk, fun hlong hver hrest hholds hne => ?_⟩
  have hhb : s.HeaderBytes (version ++ rest) := ⟨hlong, by rw [List.length_append, hver, hrest]; rfl, hholds⟩
  exact pkUnpackWith_of_wrong_version config chk hhb (by rwa [headerField_zero_append hver])

/-- With `CHK = 0` the compressed bytes and the latched `realSize` fix DST and `STATUS`. -/
theorem State.unpackChecked_false_congr {s s2 : State} (P : Params) (c : List Byte)
    (hreal : s2.seq.hl.realSize = s.seq.hl.realSize) :
    (s2.unpackChecked P false c).dst = (s.unpackChecked P false c).dst ∧
      (s2.unpackChecked P false c).status = (s.unpackChecked P false c).status := by
  rw [State.unpackChecked_false, State.unpackChecked_false, hreal]
  cases decompress P c s.seq.hl.realSize <;> exact ⟨rfl, rfl⟩

/-- Settles O40: the two files fail at the version together, or hand the same bytes and size to the adapter. -/
theorem uncheckedBytesDoNotMatter : Obligations.UncheckedBytesDoNotMatter := by
  intro s s2 t hb hb2 c hhb hhb2 hver hreal hsize hlen hrange hrange2 hc hc2 hexec
  by_cases h21 : headerField hb 0 = versionTag
  · have hrun := pkUnpackWith_of_range config false hhb h21 hlen hrange hc
    have hrun2 := pkUnpackWith_of_range config false hhb2 (hver.trans h21) (hsize ▸ hlen) hrange2 hc2
    obtain rfl := Host.Outcome.next.inj (hrun.symm.trans hexec)
    exact ⟨_, hrun2, State.unpackChecked_false_congr config c hreal⟩
  · have hrun := pkUnpackWith_of_wrong_version config false hhb h21
    obtain rfl := Host.Outcome.next.inj (hrun.symm.trans hexec)
    exact ⟨_, pkUnpackWith_of_wrong_version config false hhb2 (hver ▸ h21), rfl, rfl⟩

/-- Settles O42: the check fails, since one changed byte changes the checksum (40_crc.md R127). -/
theorem chkCatchesOneCorruptedByte : Obligations.ChkCatchesOneCorruptedByte := by
  intro s hb pre suf b b' hok hhb hver hlen hrange hsum hc hne
  have hchanged : crc (pre ++ b' :: suf) ≠ headerField hb 6 :=
    hsum ▸ oneChangedByteChangesTheChecksum pre suf b' b hne.symm
  refine (pkUnpackWith_of_range config true hhb hver hlen.symm hrange hc).trans ?_
  rw [State.unpackChecked_true_latched hok, if_pos hchanged]

end Sys2Proof.Machine
end

section
/-! `PK.VALID` (43_container.md R195, R196). -/

namespace Sys2Proof.Machine

theorem execPkValid_of_short {s : State} (hshort : s.srclen.toNat < hdrSize) :
    execPkValid s = .next (s.failedKeep .hdec .formatError) :=
  (execPkValid_next_iff s _).mpr (.inl ⟨hshort, rfl⟩)

/-- Only the first four cells are read (43_container.md R195). -/
theorem execPkValid_of_holds {s : State} {vb : List Byte} (hlong : hdrSize ≤ s.srclen.toNat) (hlen : vb.length = 4)
    (hholds : s.Holds 0 vb) :
    execPkValid s = .next
      (if unle32 vb ≠ versionTag then s.failedKeep .ver .formatError
        else { s with status := .success, seq := .idle }) :=
  (execPkValid_next_iff s _).mpr (.inr ⟨hlong, vb, (s.memRead_ok_iff 0 4 vb).mpr ⟨hlen, hholds⟩, rfl⟩)

theorem State.failedKeep_statusWord {s : State} (htv : s.tv = false) (p : Phase) (e : ErrCode) :
    (s.failedKeep p e).statusWord = statusBits (.failure e p) false :=
  congrArg (statusBits _) htv

/-- Settles O44: `SRCLEN` decides first and the four bytes second. -/
theorem pkValidChecksTheVersion : Obligations.PkValidChecksTheVersion := by
  refine ⟨decode_encode .pkValid, fun s => ⟨fun hshort => ⟨execPkValid_of_short hshort, fun htv => ?_⟩,
    fun hlong vb hlen hholds => ?_⟩⟩
  · exact (State.failedKeep_statusWord htv _ _).trans (by decide)
  · have hrun := execPkValid_of_holds hlong hlen hholds
    refine ⟨fun hver => ?_, fun hver => ⟨?_, fun htv => ?_⟩⟩
    · exact hrun.trans (congrArg _ (if_neg (not_not.mpr hver)))
    · exact hrun.trans (congrArg _ (if_pos hver))
    · exact (State.failedKeep_statusWord htv _ _).trans (by decide)

/-- The first four bytes of a container are the version. -/
theorem State.take_four_container (s : State) (c : List Byte) : (s.container c).take 4 = le32 versionTag := by
  rw [State.container, List.append_assoc]
  rfl

/-- Settles O45: however much of the container is loaded, it has the version in its first four bytes. -/
theorem packedPrefixValidates : Obligations.PackedPrefixValidates := by
  intro P s t s2 p n _ _ _ hrepack herr hlong hfits hsrclen hholds
  obtain ⟨-, c, -, -, -, hdst⟩ := pkRepackWith_success hrepack herr
  have hversion : s2.Holds 0 (le32 versionTag) := by
    have hfour := hholds.take 4
    rwa [List.take_take, Nat.min_eq_left (by omega), hdst, State.take_four_container] at hfour
  have hlength : hdrSize ≤ s2.srclen.toNat := by
    rw [hsrclen, BitVec.toNat_ofNat, Nat.mod_eq_of_lt (by omega)]
    exact hlong
  have hrun := execPkValid_of_holds hlength rfl hversion
  rw [unle32_le32] at hrun
  exact hrun.trans (congrArg _ (if_neg (not_not.mpr rfl)))

end Sys2Proof.Machine
end

section
/-! The round trip of a container, by the commands (43_container.md R191) and by the host's operations
(30_encoding.md R102). -/

namespace Sys2Proof.Machine

/-- The source operand is one byte sequence. -/
theorem State.Source.unique {s : State} {p q : List Byte} (hp : s.Source p) (hq : s.Source q) : p = q := by
  obtain ⟨hplen, hpholds⟩ := hp
  obtain ⟨hqlen, hqholds⟩ := hq
  exact hpholds.unique hqholds (hplen.trans hqlen.symm)

theorem packHeader_compressedSize_toNat {c : List Byte} (hpad : ¬ paddingSize c.length < 0) (realSize sum : Word) :
    (packHeader realSize c.length sum).compressedSize.toNat = c.length := by
  rw [paddingSize_neg_iff] at hpad
  rw [packHeader, BitVec.toNat_ofNat, Nat.mod_eq_of_lt (by omega)]

/-- A source that begins with an encoded header and the compressed range it declares passes every check of the format,
and the checksum's too when it is that of the range; then what the adapter answers is in DST. -/
theorem pkUnpackWith_of_encoded {P : Params} {s : State} {h : Header} {c rest p : List Byte} (chk : Bool)
    (hok : s.TableOk) (hsource : s.Source (encodeHeader h ++ c ++ rest)) (hver : h.version = versionTag)
    (hsize : h.compressedSize.toNat = c.length) (hsum : h.checksum = crc c)
    (hp : decompress P c h.realSize = .ok p) :
    ∃ t, pkUnpackWith P chk s = .next t ∧ t.status.err = .none ∧ t.dst = p := by
  obtain ⟨hlen, hholds⟩ := hsource
  rw [List.length_append, List.length_append, encodeHeader_length] at hlen
  obtain ⟨hfront, -⟩ := hholds.append
  obtain ⟨hheader, hc⟩ := hfront.append
  rw [Nat.zero_add, encodeHeader_length] at hc
  have field (k : Fin 8) : headerField (encodeHeader h) k = h.get k := by
    rw [← decodeHeader_get, decodeHeader_encodeHeader]
  have hhb : s.HeaderBytes (encodeHeader h) := ⟨by omega, encodeHeader_length h, hheader⟩
  have hlen2 : c.length = (headerField (encodeHeader h) 2).toNat :=
    hsize.symm.trans (congrArg BitVec.toNat (field 2).symm)
  have hrun := pkUnpackWith_of_range P chk hhb ((field 0).trans hver) hlen2 (by omega) hc
  refine ⟨_, hrun, ?_⟩
  cases chk with
  | false =>
    rw [State.unpackChecked_false, decodeHeader_encodeHeader, hp]
    exact ⟨rfl, rfl⟩
  | true =>
    have hmatch : crc c = headerField (encodeHeader h) 6 := hsum.symm.trans (field 6).symm
    have hreal : headerField (encodeHeader h) 1 = h.realSize := field 1
    rw [State.unpackChecked_true_latched hok, if_neg (not_not.mpr hmatch), hreal, hp]
    exact ⟨rfl, rfl⟩

/-- Settles O41: the container declares the compressed bytes and their checksum, and the adapter turns them back. -/
theorem repackThenUnpackRestores : Obligations.RepackThenUnpackRestores := by
  intro P chk s t s2 p hP hok hok2 hp hrepack herr _ hsource2
  obtain ⟨p', c, hp', hc, hpad, hdst⟩ := pkRepackWith_success hrepack herr
  obtain rfl : p' = p := hp'.unique hp
  rw [hdst, State.container, s.checksum_ensureTable hok] at hsource2
  obtain ⟨t2, hrun, hnone, hback⟩ := pkUnpackWith_of_encoded chk hok2 hsource2 rfl
    (packHeader_compressedSize_toNat hpad _ _) rfl (decompress_of_compress hP hc hp.1.symm)
  exact ⟨t2, hrun, hnone, hback, by rw [State.dstlen, hback]⟩

/-! ### By the host's operations -/

theorem Ends.tableOk {i : Instr} {s t : State} (h : Ends i s t) (hs : s.TableOk) : t.TableOk := by
  obtain ⟨htable, htv⟩ := h.table
  rw [State.TableOk, htable, htv]
  exact hs.tableAt i _

/-- An operation whose bytes fit SRC runs its command on them, with the table invariant kept before and after. -/
theorem HostOp.run_of_fits (op : HostOp) {s : State} (hok : s.TableOk) (hfit : op.loads.length ≤ config.bufCap) :
    ∃ u v t : State, u.TableOk ∧ u.srclen = BitVec.ofNat 32 op.loads.length ∧ u.Source op.loads ∧
      exec op.command u = .next v ∧ t.TableOk ∧
      op.run s = .next (t, some (if v.status.err = .none then .ok (op.output v) else .err v.status.err.code)) := by
  obtain ⟨-, hruns⟩ := hostOperationsReturnTheResultOrTheError op s
  obtain ⟨u, v, t, r, hrun, hu, hsource, hexec, ht, rfl⟩ := hruns hfit
  have hoku : u.TableOk := by rw [hu]; exact hok
  have hokv : v.TableOk := (exec_ends hexec).tableOk hoku
  exact ⟨u, v, t, hoku, by rw [hu], hsource, hexec, by rw [ht]; exact hokv, hrun⟩

/-- Settles O54: `repack` returns the error of `PK.REPACK` or its container; the file goes back through `PK.UNPACK`,
and its first 64 bytes through `PK.VALID`. The accesses are one step each with no other between them, and the bytes that
`repack` has for the destination are its result (log 20). -/
theorem hostRoundTrip : Obligations.HostRoundTrip := by
  intro s p hok hfit
  obtain ⟨u, v, t, hoku, -, hsource, hrepack, hokt, hrun⟩ := (HostOp.repack p).run_of_fits hok hfit
  refine ⟨t, _, hrun, ?_⟩
  by_cases herr : v.status.err = .none
  case neg =>
    rw [if_neg herr]
    exact .inl ⟨_, (pkRepackWith_failure hrepack herr).1, rfl⟩
  have hlength : v.dst.length = fileSize := pkRepackWith_success_length hrepack herr
  have hfile : v.dst.length ≤ config.bufCap := hlength.trans_le config_lawful.bufCap_ge
  rw [if_pos herr]
  refine .inr ⟨v.dst, rfl, hlength, ?_⟩
  obtain ⟨u2, v2, t2, hoku2, hsrclen2, hsource2, hunpack, hokt2, hrun2⟩ :=
    (HostOp.unpack v.dst).run_of_fits hokt hfile
  obtain ⟨w, hw, hnone, hback, -⟩ := repackThenUnpackRestores config false u v u2 p config_lawful hoku hoku2 hsource
    hrepack herr (hsrclen2.trans (congrArg _ hlength)) hsource2
  obtain rfl : w = v2 := Host.Outcome.next.inj (hw.symm.trans hunpack)
  rw [if_pos hnone] at hrun2
  refine ⟨t2, hback ▸ hrun2, ?_⟩
  have hwindow : (validateWindow v.dst).length = 64 := by
    rw [validateWindow, List.length_take, hlength]
    rfl
  obtain ⟨u3, v3, t3, -, hsrclen3, hsource3, hvalid, -, hrun3⟩ :=
    (HostOp.validate v.dst).run_of_fits hokt2 ((List.length_take_le' _ _).trans hfile)
  have haccept := packedPrefixValidates config u v u3 p 64 config_lawful hoku hsource hrepack herr (by decide)
    (by decide) (hsrclen3.trans (congrArg _ hwindow)) hsource3.2
  obtain rfl := Host.Outcome.next.inj (haccept.symm.trans hvalid)
  exact ⟨t3, hrun3⟩

end Sys2Proof.Machine
end

section
/-! Errors are precise: what a failing command leaves (60_exceptions.md R215), and that a format check fails before the
core is asked (60_exceptions.md R218). -/

namespace Sys2Proof.Machine

/-! ### A command that ends in an error -/

theorem producesBytes_eq_true_iff (i : Instr) : producesBytes i = true ↔
    i ∈ [Instr.dcaComp, .dcaDecomp, .hdrEnc, .pkRepack, .pkUnpack false, .pkUnpack true] := by
  cases i with
  | pkUnpack chk => cases chk <;> decide
  | _ => decide

/-- An end that raised an error wrote `STATUS`, emptied `DST` of a byte-producing command, and left all else but the
table. -/
theorem Ends.eq_of_err {i : Instr} {s t : State} (h : Ends i s t) (herr : t.status.err ≠ .none) :
    t = { s with status := .failure t.status.err t.status.phase, table := t.table, tv := t.tv, seq := .idle
                 dst := if producesBytes i then [] else s.dst } := by
  cases h with
  | success => exact absurd rfl herr
  | failure e p _ =>
    conv_lhs => rw [s.tableAt_eq i p]
    rfl

/-- Settles O48: an error is one of the two ends of a command, and only the other end shows `P_DONE`. -/
theorem failedCommandChangesNothingElse : Obligations.FailedCommandChangesNothingElse := by
  refine ⟨producesBytes_eq_true_iff, fun _ _ _ => rfl, fun i s t hexec herr => ?_⟩
  have hend := exec_ends hexec
  obtain ⟨-, hdone, -⟩ := errorsHaveTheListedCauses.1 i s t hexec
  exact ⟨hend.eq_of_err herr, mt hdone.mpr herr, congrArg Sequencer.wrk hend.seq_idle⟩

/-! ### `FormatError` and the core -/

theorem AdapterKind.decompressErr_ne_formatError (k : AdapterKind) : k.decompressErr ≠ .formatError := by
  cases k <;> decide

/-- Once the core is asked, `FormatError` is no longer among the ends (41_codec_adapter.md R142). -/
theorem State.unpackPayload_err_ne_formatError (P : Params) (chk : Bool) (c : List Byte) (s : State) :
    (s.unpackPayload P chk c).status.err ≠ .formatError := by
  rw [State.unpackPayload]
  cases decompress P c s.seq.hl.realSize with
  | error k => exact k.decompressErr_ne_formatError
  | ok out => exact ErrCode.noConfusion

/-- A `FormatError` past the range check is that of the integrity check, which stands before the core. -/
theorem State.unpackChecked_eq_of_formatError {P : Params} {chk : Bool} {c : List Byte} {s : State}
    (h : (s.unpackChecked P chk c).status.err = .formatError) (Q : Params) :
    s.unpackChecked Q chk c = s.unpackChecked P chk c := by
  cases chk with
  | false => exact absurd h (s.unpackPayload_err_ne_formatError P false c)
  | true =>
    have hcheck (R : Params) := s.unpackChecked_true_setSeq R s.seq c
    by_cases hsum : checksum s.ensureTable.table c ≠ s.seq.hl.checksum
    · exact ((hcheck Q).trans (if_pos hsum)).trans ((hcheck P).trans (if_pos hsum)).symm
    · rw [(hcheck P).trans (if_neg hsum)] at h
      exact absurd h (State.unpackPayload_err_ne_formatError P true c _)

/-- Settles O43: three checks stand before any use of the configuration, and past them only the integrity check can
fail with this error. -/
theorem formatErrorsPrecedeTheCore : Obligations.FormatErrorsPrecedeTheCore := by
  intro P Q chk s t hrun herr
  refine (pkUnpackWith_next_iff Q chk s t).mpr ?_
  obtain hshort | ⟨hlong, hb, hhb, hver | hbounds | ⟨hver, hrange, c, hc, rfl⟩⟩ :=
    (pkUnpackWith_next_iff P chk s t).mp hrun
  · exact .inl hshort
  · exact .inr ⟨hlong, hb, hhb, .inl hver⟩
  · exact .inr ⟨hlong, hb, hhb, .inr (.inl hbounds)⟩
  · have hsame := State.unpackChecked_eq_of_formatError herr Q
    exact .inr ⟨hlong, hb, hhb, .inr (.inr ⟨hver, hrange, c, hc, hsame.symm⟩)⟩

end Sys2Proof.Machine
end

section
/-! Before the first command (70_reset_and_hazards.md R248): a table that was built early changes no result, since every
operation of a running command commutes with building it. -/

namespace Sys2Proof.Machine

theorem State.withTable_tableOk (s : State) : s.withTable.TableOk := fun _ => rfl

/-! ### The shared ends of a command commute with the built table -/

theorem State.withTable_finishCompress (s : State) (i : Instr) (r : Except AdapterKind (List Byte)) :
    s.withTable.finishCompress i r = (s.finishCompress i r).withTable := by
  cases r <;> rfl

theorem State.withTable_finishDecompress (s : State) (i : Instr) (r : Except AdapterKind (List Byte)) :
    s.withTable.finishDecompress i r = (s.finishDecompress i r).withTable := by
  cases r <;> rfl

/-! ### The commands that do not use the table carry it along -/

section
variable {s t : State}

theorem execDcaComp_withTable (h : execDcaComp s = .next t) :
    execDcaComp s.withTable = .next t.withTable := by
  obtain ⟨input, hinput, rfl⟩ := (dcaCompWith_next_iff config s t).mp h
  exact (dcaCompWith_next_iff config _ _).mpr
    ⟨input, hinput, ((s.begin .comp).withTable_finishCompress _ _).symm⟩

theorem execDcaDecomp_withTable (h : execDcaDecomp s = .next t) :
    execDcaDecomp s.withTable = .next t.withTable := by
  obtain ⟨input, hinput, rfl⟩ := (dcaDecompWith_next_iff config s t).mp h
  exact (dcaDecompWith_next_iff config _ _).mpr
    ⟨input, hinput, ((s.begin .decomp).withTable_finishDecompress _ _).symm⟩

theorem execHdrDec_withTable (h : execHdrDec s = .next t) :
    execHdrDec s.withTable = .next t.withTable := by
  refine (execHdrDec_next_iff _ _).mpr ?_
  obtain ⟨hshort, rfl⟩ | ⟨hlong, bytes, hbytes, rfl⟩ := (execHdrDec_next_iff s t).mp h
  · exact .inl ⟨hshort, rfl⟩
  · exact .inr ⟨hlong, bytes, hbytes, rfl⟩

theorem execPkValid_withTable (h : execPkValid s = .next t) :
    execPkValid s.withTable = .next t.withTable := by
  refine (execPkValid_next_iff _ _).mpr ?_
  obtain ⟨hshort, rfl⟩ | ⟨hlong, vb, hvb, rfl⟩ := (execPkValid_next_iff s t).mp h
  · exact .inl ⟨hshort, rfl⟩
  · exact .inr ⟨hlong, vb, hvb, by split <;> rfl⟩

end

/-! ### The commands that go through the guard (40_crc.md R123) -/

section
variable {s : State} (hok : s.TableOk)
include hok

/-- The guard leaves the built table whether it was built early or not, so both runs emit the same container. -/
theorem State.TableOk.withTable_packCompressed (c : List Byte) :
    s.withTable.packCompressed c = (s.packCompressed c).withTable := by
  have hlazy := s.packCompressed_setSeq s.seq c
  have heager := s.withTable.packCompressed_setSeq s.seq c
  rw [s.ensureTable_eq hok] at hlazy
  rw [s.withTable.ensureTable_eq s.withTable_tableOk] at heager
  refine heager.trans (Eq.trans ?_ (congrArg State.withTable hlazy).symm)
  split <;> rfl

theorem State.TableOk.withTable_finishRepack (r : Except AdapterKind (List Byte)) :
    s.withTable.finishRepack r = (s.finishRepack r).withTable := by
  cases r with
  | error k => rfl
  | ok c => exact hok.withTable_packCompressed c

theorem State.TableOk.withTable_unpackChecked (P : Params) (chk : Bool) (c : List Byte) :
    s.withTable.unpackChecked P chk c = (s.unpackChecked P chk c).withTable := by
  cases chk with
  | false => exact (s.enter .decomp).withTable_finishDecompress _ _
  | true =>
    have hsame : s.withTable.unpackChecked P true c = s.unpackChecked P true c :=
      (s.withTable.unpackChecked_true P c s.withTable_tableOk).trans (s.unpackChecked_true P c hok).symm
    rw [hsame, s.unpackChecked_true P c hok]
    split
    · rfl
    · exact State.withTable_finishDecompress { s.withTable with seq := ⟨.decomp, s.seq.hl, s.seq.wrk, crc c⟩ } _ _

theorem execCrcSum_withTable {t : State} (h : execCrcSum s = .next t) :
    execCrcSum s.withTable = .next t.withTable := by
  obtain ⟨bytes, hbytes, rfl⟩ := (execCrcSum_next_iff s t).mp h
  refine (execCrcSum_next_iff _ _).mpr ⟨bytes, hbytes, ?_⟩
  have hguard : (s.begin .tbl).ensureTable = s.withTable.begin .tbl := (s.begin .tbl).ensureTable_eq hok
  rw [hguard]
  rfl

theorem execPkRepack_withTable {t : State} (h : execPkRepack s = .next t) :
    execPkRepack s.withTable = .next t.withTable := by
  obtain ⟨payload, hpayload, rfl⟩ := (pkRepackWith_next_iff config s t).mp h
  have hbegin : (s.begin .comp).TableOk := hok
  exact (pkRepackWith_next_iff config _ _).mpr ⟨payload, hpayload, (hbegin.withTable_finishRepack _).symm⟩

theorem execPkUnpack_withTable {chk : Bool} {t : State} (h : execPkUnpack chk s = .next t) :
    execPkUnpack chk s.withTable = .next t.withTable := by
  refine (pkUnpackWith_next_iff config chk _ _).mpr ?_
  obtain ⟨hshort, rfl⟩ | ⟨hlong, hb, hhb, ⟨hver, rfl⟩ | ⟨hver, hrange, rfl⟩ | ⟨hver, hrange, c, hc, rfl⟩⟩ :=
    (pkUnpackWith_next_iff config chk s t).mp h
  · exact .inl ⟨hshort, rfl⟩
  · exact .inr ⟨hlong, hb, hhb, .inl ⟨hver, rfl⟩⟩
  · exact .inr ⟨hlong, hb, hhb, .inr (.inl ⟨hver, hrange, rfl⟩)⟩
  · have hlatched : ({ s with seq := ⟨.bounds, decodeHeader hb, [], 0⟩ } : State).TableOk := hok
    exact .inr ⟨hlong, hb, hhb, .inr (.inr ⟨hver, hrange, c, hc, (hlatched.withTable_unpackChecked _ _ _).symm⟩)⟩

end

/-- Settles O23: a command that does not reach the table carries it along, and the guard leaves the same table either
way. -/
theorem eagerTableChangesNoResult : Obligations.EagerTableChangesNoResult := by
  intro i s t hok h
  cases i with
  | crcTbl => cases h; rfl
  | crcSum => exact execCrcSum_withTable hok h
  | dcaComp => exact execDcaComp_withTable h
  | dcaDecomp => exact execDcaDecomp_withTable h
  | hdrEnc => cases h; rfl
  | hdrDec => exact execHdrDec_withTable h
  | pkRepack => exact execPkRepack_withTable hok h
  | pkUnpack chk => exact execPkUnpack_withTable hok h
  | pkValid => exact execPkValid_withTable h

end Sys2Proof.Machine
end

section
/-! Written and unwritten operands (70_reset_and_hazards.md R249, R252): a command completes when its operands are
written, and otherwise faults at the first unwritten cell; `OperandOutcome` says both at once. -/

namespace Sys2Proof.Machine

/-! ### A range read inside the source -/

/-- The cell `a` of the source operand is the first one that is not written. -/
structure State.FirstUnwritten (s : State) (a : Nat) : Prop where
  lt_srclen : a < s.srclen.toNat
  unwritten : Memory.read s.src a = none
  written_below : ∀ b, b < a → (Memory.read s.src b).isSome = true

theorem State.written_of_memRead_ok {s : State} {a n : Nat} {bytes : List Byte} (h : s.memRead a n = .ok bytes) :
    s.Written a n := by
  obtain ⟨rfl, hholds⟩ := (s.memRead_ok_iff a n bytes).mp h
  exact fun k hk => Option.isSome_of_eq_some (hholds k hk)

theorem State.not_written_of_memRead_error {s : State} {a n e : Nat} (h : s.memRead a n = .error e) :
    ¬ s.Written a n := by
  intro hw
  obtain ⟨bytes, hbytes, -⟩ := s.memRead_of_written a n hw
  cases hbytes.symm.trans h

/-- A range read inside the source, all of it written below the range, stops at the first unwritten cell of the
source. -/
theorem State.firstUnwritten_of_memRead_error {s : State} {a n e : Nat} (h : s.memRead a n = .error e)
    (hle : a + n ≤ s.srclen.toNat) (hbelow : s.Written 0 a) : s.FirstUnwritten e := by
  obtain ⟨hae, hen, hnone, hsome⟩ := (s.memRead_error_iff a n e).mp h
  refine ⟨hen.trans_le hle, hnone, fun b hb => ?_⟩
  obtain hlow | hhigh := Nat.lt_or_ge b a
  · simpa using hbelow b hlow
  · exact hsome b hhigh hb

theorem State.written_zero (s : State) (a : Nat) : s.Written a 0 := fun _ hk => absurd hk (Nat.not_lt_zero _)

/-! ### The outcome of a command by what is written -/

/-- The outcomes of the command `i` in `s`: a next state when its operands are written, otherwise the fault that names
`i` and the first unwritten cell. -/
inductive OperandOutcome (i : Instr) (s : State) : Outcome → Prop
  | completes (hwritten : s.OperandsWritten i) (t : State) : OperandOutcome i s (.next t)
  | faults (hunwritten : ¬ s.OperandsWritten i) (a : Nat) (hfirst : s.FirstUnwritten a) :
    OperandOutcome i s (.fault (.unwrittenSource i a))

theorem OperandOutcome.of_next {i : Instr} {s : State} {o : Outcome} (hwritten : s.OperandsWritten i)
    (h : ∃ t, o = .next t) : OperandOutcome i s o := by
  obtain ⟨t, rfl⟩ := h
  exact .completes hwritten t

/-- A command whose operand is the one range `SRC[0..n)` inside the source: the read decides. -/
theorem OperandOutcome.of_read {i : Instr} {s : State} {o : Outcome} {n : Nat} (hn : n ≤ s.srclen.toNat)
    (hiff : s.OperandsWritten i ↔ s.Written 0 n) (hok : ∀ bytes, s.memRead 0 n = .ok bytes → ∃ t, o = .next t)
    (herror : ∀ a, s.memRead 0 n = .error a → o = .fault (.unwrittenSource i a)) : OperandOutcome i s o := by
  cases hread : s.memRead 0 n with
  | ok bytes => exact .of_next (hiff.mpr (State.written_of_memRead_ok hread)) (hok bytes hread)
  | error a =>
    rw [herror a hread]
    exact .faults (mt hiff.mp (State.not_written_of_memRead_error hread)) a
      (State.firstUnwritten_of_memRead_error hread (by omega) (s.written_zero 0))

/-- A command whose operand is the whole source (10_state.md R28). -/
theorem OperandOutcome.of_source {i : Instr} {s : State} {o : Outcome}
    (hiff : s.OperandsWritten i ↔ s.Written 0 s.srclen.toNat)
    (hok : ∀ bytes, s.sourceBytes = .ok bytes → ∃ t, o = .next t)
    (herror : ∀ a, s.sourceBytes = .error a → o = .fault (.unwrittenSource i a)) : OperandOutcome i s o :=
  .of_read le_rfl hiff hok herror

section
variable {i : Instr} {s : State} {o : Outcome} (h : OperandOutcome i s o)
include h

theorem OperandOutcome.next_of_written (hwritten : s.OperandsWritten i) : ∃ t, o = .next t := by
  cases h with
  | completes _ t => exact ⟨t, rfl⟩
  | faults hunwritten => exact absurd hwritten hunwritten

theorem OperandOutcome.fault_of_not_written (hunwritten : ¬ s.OperandsWritten i) :
    ∃ a, o = .fault (.unwrittenSource i a) ∧ s.FirstUnwritten a := by
  cases h with
  | completes hwritten => exact absurd hwritten hunwritten
  | faults _ a hfirst => exact ⟨a, rfl, hfirst⟩

theorem OperandOutcome.not_written_of_fault {f : Fault} (hfault : o = .fault f) : ¬ s.OperandsWritten i := by
  cases h with
  | completes => cases hfault
  | faults hunwritten => exact hunwritten

theorem OperandOutcome.ne_refused (r : Refusal) : o ≠ .refused r := by
  cases h <;> simp

end

/-! ### The commands that read one range -/

theorem execCrcSum_operandOutcome (s : State) : OperandOutcome .crcSum s (execCrcSum s) :=
  .of_source Iff.rfl (fun bytes h => ⟨_, (execCrcSum_next_iff s _).mpr ⟨bytes, h, rfl⟩⟩)
    fun a h => by rw [execCrcSum_eq, h]

theorem execDcaComp_operandOutcome (s : State) : OperandOutcome .dcaComp s (execDcaComp s) :=
  .of_source Iff.rfl (fun bytes h => ⟨_, (dcaCompWith_next_iff config s _).mpr ⟨bytes, h, rfl⟩⟩)
    fun a h => by simp only [execDcaComp, dcaCompWith, State.begin_sourceBytes, h]

theorem execDcaDecomp_operandOutcome (s : State) : OperandOutcome .dcaDecomp s (execDcaDecomp s) :=
  .of_source Iff.rfl (fun bytes h => ⟨_, (dcaDecompWith_next_iff config s _).mpr ⟨bytes, h, rfl⟩⟩)
    fun a h => by simp only [execDcaDecomp, dcaDecompWith, State.begin_sourceBytes, h]

theorem execPkRepack_operandOutcome (s : State) : OperandOutcome .pkRepack s (execPkRepack s) :=
  .of_source Iff.rfl (fun bytes h => ⟨_, (pkRepackWith_next_iff config s _).mpr ⟨bytes, h, rfl⟩⟩)
    fun a h => by simp only [execPkRepack, pkRepackWith, State.begin_sourceBytes, h]

theorem execHdrDec_operandOutcome (s : State) : OperandOutcome .hdrDec s (execHdrDec s) := by
  obtain hshort | hlong := Nat.lt_or_ge s.srclen.toNat hdrSize
  · exact .of_next (fun hle => absurd hle hshort.not_ge) ⟨_, (execHdrDec_next_iff s _).mpr (.inl ⟨hshort, rfl⟩)⟩
  · refine .of_read hlong (forall_prop_of_true hlong)
      (fun bytes h => ⟨_, (execHdrDec_next_iff s _).mpr (.inr ⟨hlong, bytes, h, rfl⟩)⟩) fun a h => ?_
    simp only [execHdrDec, State.begin_srclen, State.begin_memRead, hlong.not_gt, if_false, h]

theorem execPkValid_operandOutcome (s : State) : OperandOutcome .pkValid s (execPkValid s) := by
  obtain hshort | hlong := Nat.lt_or_ge s.srclen.toNat hdrSize
  · exact .of_next (fun hle => absurd hle hshort.not_ge) ⟨_, (execPkValid_next_iff s _).mpr (.inl ⟨hshort, rfl⟩)⟩
  · refine .of_read (le_trans (by decide) hlong) (forall_prop_of_true hlong)
      (fun vb h => ⟨_, (execPkValid_next_iff s _).mpr (.inr ⟨hlong, vb, h, rfl⟩)⟩) fun a h => ?_
    simp only [execPkValid, State.begin_srclen, State.begin_memRead, hlong.not_gt, if_false, h]

/-! ### `PK.UNPACK`: the header first, and by it the compressed range -/

section
variable {s : State} {hb : List Byte} (chk : Bool)

theorem State.HeaderBytes.unique {hb2 : List Byte} (h : s.HeaderBytes hb) (h2 : s.HeaderBytes hb2) : hb2 = hb :=
  Except.ok.inj (h2.memRead.symm.trans h.memRead)

/-- With the header written, what is left to write is the compressed range that it declares. -/
theorem State.HeaderBytes.operandsWritten_iff (h : s.HeaderBytes hb) :
    s.OperandsWritten (.pkUnpack chk) ↔ (headerField hb 0 = versionTag →
      hdrSize + (headerField hb 2).toNat ≤ s.srclen.toNat → s.Written hdrSize (headerField hb 2).toNat) := by
  refine ⟨fun hw => hw.2 hb h, fun hw => ⟨fun _ => State.written_of_memRead_ok h.memRead, fun hb2 h2 => ?_⟩⟩
  rw [h.unique h2]
  exact hw

theorem execPkUnpack_of_header_error {a : Nat} (hlong : hdrSize ≤ s.srclen.toNat)
    (h : s.memRead 0 hdrSize = .error a) : execPkUnpack chk s = .fault (.unwrittenSource (.pkUnpack chk) a) := by
  simp only [execPkUnpack, pkUnpackWith, State.begin_srclen, State.begin_memRead, hlong.not_gt, if_false, h]

theorem execPkUnpack_of_range_error {a : Nat} (hhb : s.HeaderBytes hb) (hver : headerField hb 0 = versionTag)
    (hrange : hdrSize + (headerField hb 2).toNat ≤ s.srclen.toNat)
    (h : s.memRead hdrSize (headerField hb 2).toNat = .error a) :
    execPkUnpack chk s = .fault (.unwrittenSource (.pkUnpack chk) a) := by
  simp only [execPkUnpack, pkUnpackWith, State.begin_srclen, State.begin_memRead, hhb.1.not_gt, if_false,
    hhb.memRead, State.enter_seq, State.latchHeader_seq, decodeHeader, hver, ne_eq, not_true_eq_false,
    State.enter_srclen, State.latchHeader_srclen, hrange.not_gt, State.enter_memRead, State.latchHeader_memRead, h]

/-- Past the header: the version and the range check may end the command before the compressed range is read. -/
theorem State.HeaderBytes.execPkUnpack_operandOutcome (hhb : s.HeaderBytes hb) :
    OperandOutcome (.pkUnpack chk) s (execPkUnpack chk s) := by
  have hiff := hhb.operandsWritten_iff chk
  by_cases hver : headerField hb 0 = versionTag
  case neg =>
    exact .of_next (hiff.mpr fun h => absurd h hver) ⟨_, pkUnpackWith_of_wrong_version config chk hhb hver⟩
  obtain hout | hrange := Nat.lt_or_ge s.srclen.toNat (hdrSize + (headerField hb 2).toNat)
  · exact .of_next (hiff.mpr fun _ h => absurd h hout.not_ge)
      ⟨_, pkUnpackWith_of_out_of_bounds config chk hhb hver hout⟩
  cases hread : s.memRead hdrSize (headerField hb 2).toNat with
  | ok c =>
    obtain ⟨hlen, hc⟩ := (s.memRead_ok_iff _ _ c).mp hread
    exact .of_next (hiff.mpr fun _ _ => State.written_of_memRead_ok hread)
      ⟨_, pkUnpackWith_of_range config chk hhb hver hlen (hlen ▸ hrange) hc⟩
  | error a =>
    rw [execPkUnpack_of_range_error chk hhb hver hrange hread]
    exact .faults (fun hw => State.not_written_of_memRead_error hread (hiff.mp hw hver hrange)) a
      (State.firstUnwritten_of_memRead_error hread hrange (State.written_of_memRead_ok hhb.memRead))

end

theorem execPkUnpack_operandOutcome (chk : Bool) (s : State) :
    OperandOutcome (.pkUnpack chk) s (execPkUnpack chk s) := by
  obtain hshort | hlong := Nat.lt_or_ge s.srclen.toNat hdrSize
  · exact .of_next ⟨fun hle => absurd hle hshort.not_ge, fun _ hhb => absurd hhb.1 hshort.not_ge⟩
      ⟨_, pkUnpackWith_of_short config chk hshort⟩
  cases hread : s.memRead 0 hdrSize with
  | ok hb =>
    have hhb : s.HeaderBytes hb := ⟨hlong, (s.memRead_ok_iff _ _ hb).mp hread⟩
    exact hhb.execPkUnpack_operandOutcome chk
  | error a =>
    rw [execPkUnpack_of_header_error chk hlong hread]
    have hunwritten : ¬ s.OperandsWritten (.pkUnpack chk) :=
      fun ⟨hheader, _⟩ => State.not_written_of_memRead_error hread (hheader hlong)
    exact .faults hunwritten a
      (State.firstUnwritten_of_memRead_error hread (by omega) (s.written_zero 0))

/-! ### All nine commands -/

/-- `CRC.TBL` and `HDR.ENC` read no cell; each other command stops at the first one that it reads unwritten. -/
theorem exec_operandOutcome (i : Instr) (s : State) : OperandOutcome i s (exec i s) := by
  cases i with
  | crcTbl => exact .of_next (i := .crcTbl) trivial ⟨_, rfl⟩
  | crcSum => exact execCrcSum_operandOutcome s
  | dcaComp => exact execDcaComp_operandOutcome s
  | dcaDecomp => exact execDcaDecomp_operandOutcome s
  | hdrEnc => exact .of_next (i := .hdrEnc) trivial ⟨_, rfl⟩
  | hdrDec => exact execHdrDec_operandOutcome s
  | pkRepack => exact execPkRepack_operandOutcome s
  | pkUnpack chk => exact execPkUnpack_operandOutcome chk s
  | pkValid => exact execPkValid_operandOutcome s

/-- Settles O50: the outcome is a fault only when an operand is not written. -/
theorem commandsCompleteOnWrittenOperands : Obligations.CommandsCompleteOnWrittenOperands :=
  fun i s hwritten => (exec_operandOutcome i s).next_of_written hwritten

/-- Settles O51: a fault is one of the two outcomes and names the first unwritten cell, and no outcome is a refusal. -/
theorem unwrittenOperandFaults : Obligations.UnwrittenOperandFaults := by
  refine ⟨fun i s hunwritten => ?_, fun i s f => (exec_operandOutcome i s).not_written_of_fault,
    fun i s r => (exec_operandOutcome i s).ne_refused r⟩
  obtain ⟨a, hfault, hfirst⟩ := (exec_operandOutcome i s).fault_of_not_written hunwritten
  exact ⟨a, hfault, hfirst.lt_srclen, hfirst.unwritten, hfirst.written_below⟩

end Sys2Proof.Machine
end
